-- ==== Sys2Proof/Word.lean ====
section
/-! DEFINITION. The widths of the machine's values (spec/00_scope.md R10, spec/40_cycle.md R150). -/

namespace Sys2Proof

/-- A u32: a register, the pc, an address, an instruction word, an immediate. -/
abbrev Word := BitVec 32

/-- A byte of memory. -/
abbrev Byte := BitVec 8

/-- A register number, 0 to 31: a number above 31 cannot be written (R34, R151; log 22). -/
abbrev RegIdx := BitVec 5

/-- A shift amount, 0 to 31 (R108, R151; log 9, log 22). -/
abbrev Shamt := BitVec 5

/-- The funct7 field that OP carries, 7 bits (R150, R151; log 22). -/
abbrev Funct7 := BitVec 7

end Sys2Proof
end

