-- ==== Sys2Proof/Syntax.lean ====
section
/-! DEFINITION. The decoded instructions (spec/40_cycle.md R150) and the decode errors (spec/30_encoding.md R123). -/

namespace Sys2Proof

/-- A decoded instruction: one constructor per mnemonic of spec/opcode_table.json. An immediate is the
32-bit pattern of its `i32` (or, for the U-type, its `u32`) value; any value may be built by the host
(R151), the decoder produces the well-formed ones. -/
inductive Instr where
  /-- Load upper immediate (R160). -/
  | lui (rd : RegIdx) (imm : Word)
  /-- Add upper immediate to pc (R161). -/
  | auipc (rd : RegIdx) (imm : Word)
  /-- Jump and link (R170). -/
  | jal (rd : RegIdx) (imm : Word)
  /-- Jump and link register (R171). -/
  | jalr (rd rs1 : RegIdx) (imm : Word)
  /-- Load word (R191). -/
  | load (rd rs1 : RegIdx) (imm : Word)
  /-- Shift by immediate (R181). -/
  | shiftImm (rd rs1 : RegIdx) (shamt : Shamt) (arithmetic : Bool)
  /-- Add immediate (R180). -/
  | opImm (rd rs1 : RegIdx) (imm : Word)
  /-- Store word (R192). -/
  | store (rs1 rs2 : RegIdx) (imm : Word)
  /-- Branch if equal (R200). -/
  | branch (rs1 rs2 : RegIdx) (imm : Word)
  /-- Add or subtract, by funct7 (R211). -/
  | op (rd rs1 rs2 : RegIdx) (funct7 : Funct7)
  /-- Multiply, low word (R212). -/
  | mul (rd rs1 rs2 : RegIdx)
  /-- Signed divide (R213). -/
  | div (rd rs1 rs2 : RegIdx)
  /-- Unsigned divide (R214). -/
  | divu (rd rs1 rs2 : RegIdx)
  /-- Signed remainder (R215). -/
  | rem (rd rs1 rs2 : RegIdx)
  /-- Unsigned remainder (R216). -/
  | remu (rd rs1 rs2 : RegIdx)
  /-- Environment call (R230). -/
  | ecall
  /-- Breakpoint (R231). -/
  | ebreak
  /-- The table's decode-error class `InvalidInstruction`: no instruction of R150 (log 23). -/
  | invalidInstruction (word : Word)
  /-- The table's decode-error class `UnknownOpcode`: no instruction of R150 (log 23). -/
  | unknownOpcode (opcode : BitVec 7)
deriving DecidableEq, Repr

/-- The two decode errors and what each carries (R123, spec/60_exceptions.md R243). -/
inductive DecodeError where
  /-- The low 7 bits match no known family; carries them. -/
  | unknownOpcode (opcode : BitVec 7)
  /-- The family matched but its funct3, funct7 or immediate combination is not defined; carries the word. -/
  | invalidInstruction (word : Word)
deriving DecidableEq, Repr

/-- The row of the opcode table that a decode error belongs to (log 23). -/
def DecodeError.row : DecodeError → Instr
  | .unknownOpcode opcode => .unknownOpcode opcode
  | .invalidInstruction w => .invalidInstruction w

/-- One of the seventeen variants of R150, not a decode-error class of the table. -/
def Instr.isVariant : Instr → Bool
  | .lui _ _ => true
  | .auipc _ _ => true
  | .jal _ _ => true
  | .jalr _ _ _ => true
  | .load _ _ _ => true
  | .shiftImm _ _ _ _ => true
  | .opImm _ _ _ => true
  | .store _ _ _ => true
  | .branch _ _ _ => true
  | .op _ _ _ _ => true
  | .mul _ _ _ => true
  | .div _ _ _ => true
  | .divu _ _ _ => true
  | .rem _ _ _ => true
  | .remu _ _ _ => true
  | .ecall => true
  | .ebreak => true
  | .invalidInstruction _ => false
  | .unknownOpcode _ => false

end Sys2Proof
end

