-- ==== Sys2Proof/WellFormed.lean ====
section
/-! DEFINITION. Which instructions an encoding exists for: the ranges of spec/30_encoding.md R103 to R108, R119, R120 and,
for the two decode-error classes, the illegal words of R124. -/

namespace Sys2Proof

/-- The range of an I-type or S-type immediate: -2048 to 2047 (R103, R104). -/
def immFits12 (imm : Word) : Bool := decide (-2048 ≤ imm.toInt) && decide (imm.toInt ≤ 2047)

/-- The values of a B-type immediate: even, -4096 to 4094 (R105). -/
def immFitsB (imm : Word) : Bool :=
  decide (-4096 ≤ imm.toInt) && decide (imm.toInt ≤ 4094) && decide (imm.toInt % 2 = 0)

/-- The values of a J-type immediate: even, -1048576 to 1048574 (R107). -/
def immFitsJ (imm : Word) : Bool :=
  decide (-1048576 ≤ imm.toInt) && decide (imm.toInt ≤ 1048574) && decide (imm.toInt % 2 = 0)

/-- The values of a U-type immediate: the low 12 bits zero (R106). -/
def immFitsU (imm : Word) : Bool := imm.extractLsb' 0 12 == 0#12

/-- The eleven opcodes of R124(a). -/
def knownOpcodes : List (BitVec 7) :=
  [0x03#7, 0x13#7, 0x17#7, 0x23#7, 0x33#7, 0x37#7, 0x3B#7, 0x63#7, 0x67#7, 0x6F#7, 0x73#7]

/-- A SYSTEM word that is neither ECALL nor EBREAK (R124(b)). -/
def isIllegalSystem (w : Word) : Bool :=
  w.extractLsb' 0 7 == 0x73#7
    && !(w.extractLsb' 12 3 == 0#3 && (w.extractLsb' 20 12 == 0#12 || w.extractLsb' 20 12 == 1#12))

/-- A word of the multiply/divide group with funct3 1, 2 or 3 (R124(c); log 10). -/
def isIllegalMulDiv (w : Word) : Bool :=
  (w.extractLsb' 0 7 == 0x33#7 || w.extractLsb' 0 7 == 0x3B#7) && w.extractLsb' 25 7 == 0x01#7
    && (w.extractLsb' 12 3 == 1#3 || w.extractLsb' 12 3 == 2#3 || w.extractLsb' 12 3 == 3#3)

/-- The instruction, or decode-error class, has an encoding. -/
def Instr.wellFormed : Instr → Bool
  | .lui _ imm => immFitsU imm
  | .auipc _ imm => immFitsU imm
  | .jal _ imm => immFitsJ imm
  | .jalr _ _ imm => immFits12 imm
  | .load _ _ imm => immFits12 imm
  | .shiftImm _ _ _ _ => true
  | .opImm _ _ imm => immFits12 imm
  | .store _ _ imm => immFits12 imm
  | .branch _ _ imm => immFitsB imm
  | .op _ _ _ funct7 => funct7 != 0x01#7
  | .mul _ _ _ => true
  | .div _ _ _ => true
  | .divu _ _ _ => true
  | .rem _ _ _ => true
  | .remu _ _ _ => true
  | .ecall => true
  | .ebreak => true
  | .invalidInstruction w => isIllegalSystem w || isIllegalMulDiv w
  | .unknownOpcode opcode => !(knownOpcodes.contains opcode)

end Sys2Proof
end

