-- ==== Sys2Proof/Decode.lean ====
section
/-! DEFINITION. Fields, immediates, the decoder and the encoder (spec/30_encoding.md), and the byte order of a word
(spec/20_memory.md R70). -/

namespace Sys2Proof

/-! ## Byte order -/

/-- A word from its four bytes, the byte at the lowest address first (R64, R70: little-endian). -/
def wordOfBytes (b0 b1 b2 b3 : Byte) : Word := b3 ++ b2 ++ b1 ++ b0

/-- Byte `k` of a word: bits `8k+7` to `8k` (R65, R71). -/
def byteOfWord (v : Word) (k : Nat) : Byte := v.extractLsb' (8 * k) 8

/-! ## Fields (R101; the register fields and shamt PRESUMED by the spec from RISC-V, log 7 and log 9) -/

/-- `w[6:0]`. -/
def opcodeOf (w : Word) : BitVec 7 := w.extractLsb' 0 7

/-- `w[14:12]`. -/
def funct3Of (w : Word) : BitVec 3 := w.extractLsb' 12 3

/-- `w[31:25]`. -/
def funct7Of (w : Word) : Funct7 := w.extractLsb' 25 7

/-- `w[11:7]` (log 7). -/
def rdOf (w : Word) : RegIdx := w.extractLsb' 7 5

/-- `w[19:15]` (log 7). -/
def rs1Of (w : Word) : RegIdx := w.extractLsb' 15 5

/-- `w[24:20]` (log 7). -/
def rs2Of (w : Word) : RegIdx := w.extractLsb' 20 5

/-- `w[24:20]` (R108; log 9). -/
def shamtOf (w : Word) : Shamt := w.extractLsb' 20 5

/-- `w[31:20]`, the field that selects ECALL and EBREAK (R121). -/
def imm12Of (w : Word) : BitVec 12 := w.extractLsb' 20 12

/-! ## Immediates -/

/-- The I-type immediate (R103). -/
def immI (w : Word) : Word := (w.extractLsb' 20 12).signExtend 32

/-- The S-type immediate (R104). -/
def immS (w : Word) : Word := (w.extractLsb' 25 7 ++ w.extractLsb' 7 5).signExtend 32

/-- The B-type immediate (R105; the order of its groups PRESUMED by the spec from RISC-V, log 8). -/
def immB (w : Word) : Word :=
  (w.extractLsb' 31 1 ++ w.extractLsb' 7 1 ++ w.extractLsb' 25 6 ++ w.extractLsb' 8 4 ++ 0#1).signExtend 32

/-- The U-type immediate, not sign-extended (R106). -/
def immU (w : Word) : Word := w.extractLsb' 12 20 ++ 0#12

/-- The J-type immediate (R107; the order of its groups PRESUMED by the spec from RISC-V, log 8). -/
def immJ (w : Word) : Word :=
  (w.extractLsb' 31 1 ++ w.extractLsb' 12 8 ++ w.extractLsb' 20 1 ++ w.extractLsb' 21 10 ++ 0#1).signExtend 32

/-! ## The decoder -/

/-- Opcode 0x13 (R115, R116; what sets the arithmetic flag: log 11). -/
def decodeOpImm (w : Word) : Instr :=
  if funct3Of w = 1#3 ∨ funct3Of w = 5#3 then
    .shiftImm (rdOf w) (rs1Of w) (shamtOf w) (decide (funct3Of w = 5#3 ∧ funct7Of w = 0x20#7))
  else .opImm (rdOf w) (rs1Of w) (immI w)

/-- Opcodes 0x33 and 0x3B, which decode identically (R119, R120; log 10, log 13). -/
def decodeOp (w : Word) : Except DecodeError Instr :=
  if funct7Of w = 0x01#7 then
    if funct3Of w = 0#3 then .ok (.mul (rdOf w) (rs1Of w) (rs2Of w))
    else if funct3Of w = 4#3 then .ok (.div (rdOf w) (rs1Of w) (rs2Of w))
    else if funct3Of w = 5#3 then .ok (.divu (rdOf w) (rs1Of w) (rs2Of w))
    else if funct3Of w = 6#3 then .ok (.rem (rdOf w) (rs1Of w) (rs2Of w))
    else if funct3Of w = 7#3 then .ok (.remu (rdOf w) (rs1Of w) (rs2Of w))
    else .error (.invalidInstruction w)
  else .ok (.op (rdOf w) (rs1Of w) (rs2Of w) (funct7Of w))

/-- Opcode 0x73 (R121; rd and rs1 are not looked at, log 14). -/
def decodeSystem (w : Word) : Except DecodeError Instr :=
  if funct3Of w = 0#3 ∧ imm12Of w = 0#12 then .ok .ecall
  else if funct3Of w = 0#3 ∧ imm12Of w = 1#12 then .ok .ebreak
  else .error (.invalidInstruction w)

/-- `decode(w)`: total, one instruction or one decode error (R109 to R122; funct3 of JALR, LOAD and STORE is
not looked at, log 12). -/
def decode (w : Word) : Except DecodeError Instr :=
  if opcodeOf w = 0x37#7 then .ok (.lui (rdOf w) (immU w))
  else if opcodeOf w = 0x17#7 then .ok (.auipc (rdOf w) (immU w))
  else if opcodeOf w = 0x6F#7 then .ok (.jal (rdOf w) (immJ w))
  else if opcodeOf w = 0x67#7 then .ok (.jalr (rdOf w) (rs1Of w) (immI w))
  else if opcodeOf w = 0x03#7 then .ok (.load (rdOf w) (rs1Of w) (immI w))
  else if opcodeOf w = 0x13#7 then .ok (decodeOpImm w)
  else if opcodeOf w = 0x23#7 then .ok (.store (rs1Of w) (rs2Of w) (immS w))
  else if opcodeOf w = 0x63#7 then .ok (.branch (rs1Of w) (rs2Of w) (immB w))
  else if opcodeOf w = 0x33#7 ∨ opcodeOf w = 0x3B#7 then decodeOp w
  else if opcodeOf w = 0x73#7 then decodeSystem w
  else .error (.unknownOpcode (opcodeOf w))

/-- The row of the opcode table that a word belongs to: its instruction, or its decode-error class (log 23). -/
def decodeRow (w : Word) : Instr :=
  match decode w with
  | .ok i => i
  | .error e => e.row

/-- The row at the head of a string of bytes, with the bytes after it. Every instruction is four bytes, the
least-significant first (R100, R70); fewer than four bytes hold none (log 32). -/
def decodeBytes : List Byte → Option (Instr × List Byte)
  | b0 :: b1 :: b2 :: b3 :: rest => some (decodeRow (wordOfBytes b0 b1 b2 b3), rest)
  | _ => none

/-- The row that the decoder reads from an instruction of `nbits` table bits, every higher bit zero, its
word laid out in memory's byte order. No instruction has more than 32 bits (log 32). -/
def decodeTableWord (nbits w : Nat) : Option Instr :=
  if 32 < nbits then none
  else
    let v : Word := BitVec.ofNat 32 (w % 2 ^ nbits)
    match decodeBytes [byteOfWord v 0, byteOfWord v 1, byteOfWord v 2, byteOfWord v 3] with
    | some (i, _) => some i
    | none => none

/-! ## The encoder (formats of R102; where the decoder ignores bits, the word R128's assembly form has, log 24) -/

/-- R format. -/
def encodeR (funct7 : Funct7) (rs2 rs1 : RegIdx) (funct3 : BitVec 3) (rd : RegIdx) (opcode : BitVec 7) : Word :=
  funct7 ++ rs2 ++ rs1 ++ funct3 ++ rd ++ opcode

/-- I format. -/
def encodeI (imm : Word) (rs1 : RegIdx) (funct3 : BitVec 3) (rd : RegIdx) (opcode : BitVec 7) : Word :=
  imm.extractLsb' 0 12 ++ rs1 ++ funct3 ++ rd ++ opcode

/-- S format. -/
def encodeS (imm : Word) (rs2 rs1 : RegIdx) (funct3 : BitVec 3) (opcode : BitVec 7) : Word :=
  imm.extractLsb' 5 7 ++ rs2 ++ rs1 ++ funct3 ++ imm.extractLsb' 0 5 ++ opcode

/-- B format (log 8). -/
def encodeB (imm : Word) (rs2 rs1 : RegIdx) (funct3 : BitVec 3) (opcode : BitVec 7) : Word :=
  imm.extractLsb' 12 1 ++ imm.extractLsb' 5 6 ++ rs2 ++ rs1 ++ funct3 ++ imm.extractLsb' 1 4
    ++ imm.extractLsb' 11 1 ++ opcode

/-- U format. -/
def encodeU (imm : Word) (rd : RegIdx) (opcode : BitVec 7) : Word :=
  imm.extractLsb' 12 20 ++ rd ++ opcode

/-- J format (log 8). -/
def encodeJ (imm : Word) (rd : RegIdx) (opcode : BitVec 7) : Word :=
  imm.extractLsb' 20 1 ++ imm.extractLsb' 1 10 ++ imm.extractLsb' 11 1 ++ imm.extractLsb' 12 8 ++ rd ++ opcode

/-- The word of a well-formed instruction; for a decode-error class, a word of that class. -/
def encode : Instr → Word
  | .lui rd imm => encodeU imm rd 0x37#7
  | .auipc rd imm => encodeU imm rd 0x17#7
  | .jal rd imm => encodeJ imm rd 0x6F#7
  | .jalr rd rs1 imm => encodeI imm rs1 0#3 rd 0x67#7
  | .load rd rs1 imm => encodeI imm rs1 2#3 rd 0x03#7
  | .shiftImm rd rs1 shamt false => encodeR 0x00#7 shamt rs1 1#3 rd 0x13#7
  | .shiftImm rd rs1 shamt true => encodeR 0x20#7 shamt rs1 5#3 rd 0x13#7
  | .opImm rd rs1 imm => encodeI imm rs1 0#3 rd 0x13#7
  | .store rs1 rs2 imm => encodeS imm rs2 rs1 2#3 0x23#7
  | .branch rs1 rs2 imm => encodeB imm rs2 rs1 0#3 0x63#7
  | .op rd rs1 rs2 funct7 => encodeR funct7 rs2 rs1 0#3 rd 0x33#7
  | .mul rd rs1 rs2 => encodeR 0x01#7 rs2 rs1 0#3 rd 0x33#7
  | .div rd rs1 rs2 => encodeR 0x01#7 rs2 rs1 4#3 rd 0x33#7
  | .divu rd rs1 rs2 => encodeR 0x01#7 rs2 rs1 5#3 rd 0x33#7
  | .rem rd rs1 rs2 => encodeR 0x01#7 rs2 rs1 6#3 rd 0x33#7
  | .remu rd rs1 rs2 => encodeR 0x01#7 rs2 rs1 7#3 rd 0x33#7
  | .ecall => 0x00000073#32
  | .ebreak => 0x00100073#32
  | .invalidInstruction w => w
  | .unknownOpcode opcode => opcode.zeroExtend 32

end Sys2Proof
end

