-- ==== Sys2Proof/Config.lean ====
section
/-! DEFINITION. What an implementation fixes and the spec leaves open: free values, and two values that this model or the spec chose.
The spec's own parameters, `MAX_MEMORY_SIZE` (R11; log 6), `ELF_PARSE_OK` (R276; log 26), `STOP` and `FUEL` (R291; log 21), are
arguments of the definitions that use them, and every claim is for all their values. -/

namespace Sys2Proof

/-- The unspecified `addr` in the `OutOfBounds` with which creating a memory fails: some function of
`MAX_MEMORY_SIZE` and the size asked for (spec/20_memory.md R61, D21; log 19). -/
opaque Config.memNewErrorAddr : Nat → Nat → Word

/-- The unspecified `size` in that same error (R61, D21; log 19). -/
opaque Config.memNewErrorSize : Nat → Nat → Nat

/-- DESIGN CHOICE (log 5): the memory size `S` of the core that `State.reset` is. The spec leaves `S` to
the host (R12); 0x400 is the size of the spec's own test vectors (spec/95_test_vectors.md). -/
def Config.resetMemorySize : Nat := 0x400

/-- DESIGN CHOICE of the spec, D6 (R51; log 4): what a byte of a new memory holds, hence what an
unlisted address reads as. -/
abbrev Config.unlistedByte : Byte := 0x00#8

end Sys2Proof
end

