-- ==== Sys2Proof/Machine/State.lean ====
section
/-! DEFINITION. Everything the core holds (spec/10_state.md), the errors it can return (spec/60_exceptions.md), and the core
right after construction. -/

namespace Sys2Proof.Machine

/-- The memory array `Mem[0 .. size-1]` (R46, R60). `cells` lists the bytes that differ from what a new memory
holds, by address. -/
structure Memory where
  /-- The length `S`, fixed at construction (R12, R60). -/
  size : Nat
  /-- Addresses strictly rising, each below `size`, no byte equal to `Config.unlistedByte`. -/
  cells : List Host.Cell
deriving DecidableEq, Repr

/-- The one canonical form of a memory, with the bounds every memory keeps: `1 <= S` (R62) and `S <= 2^32` (R11). -/
abbrev Memory.wf (m : Memory) : Prop :=
  1 ≤ m.size ∧ m.size ≤ 2 ^ 32 ∧ m.cells.Pairwise (fun c d => c.1 < d.1)
    ∧ ∀ c ∈ m.cells, c.1 < m.size ∧ c.2 ≠ Config.unlistedByte

/-- The idle/running indicator that nothing reads (R47). -/
inductive Phase where
  | idle
  | running
deriving DecidableEq, Repr

/-- The whole state of the core: registers, pc, memory (opening of spec/10_state.md) and the indicator of R47.
R48: there is nothing else. -/
structure State where
  /-- The 32 slots of the register file (R30). Read and write them by `readReg` and `writeReg`, which
  hard-wire slot 0 (R31). -/
  regs : Vector Word 32
  /-- The program counter (R37). -/
  pc : Word
  /-- The one memory the core owns (R46). -/
  mem : Memory
  /-- Idle until the first successful step or execute (R47). -/
  phase : Phase
deriving DecidableEq, Repr

/-- What a failed memory access reports (R242). -/
inductive MemoryError where
  /-- The access would exceed the capacity; carries the access address and the memory's size. -/
  | outOfBounds (addr : Word) (size : Nat)
  /-- A word access not aligned to the required boundary; carries the address and the boundary. -/
  | unalignedAccess (addr : Word) (align : Nat)
deriving DecidableEq, Repr

/-- The errors that `step` and `execute` can return: one closed type (R241, R245). -/
inductive CpuError where
  /-- A memory error from fetch, LOAD or STORE. -/
  | memory (e : MemoryError)
  /-- A decode error from `step`. -/
  | decode (e : DecodeError)
  /-- OP met a funct7 other than 0x00 and 0x20 at execute. -/
  | invalidOperation (funct7 : Funct7)
deriving DecidableEq, Repr

/-- How a cycle ends in an error: the typed error that goes back to the host (R240, R291(a)), and the state
the core is left in, from which the host may go on (R248, R249; log 1). -/
inductive Fault where
  /-- `Memory(e)`. Raised by the fetch of `step` (the state is as before the cycle, R152) and by LOAD and STORE
  (nothing written, the pc past the instruction, R156). Safe: the spec names this error and the state after it. -/
  | memory (e : MemoryError) (after : State)
  /-- `Decode(e)`. Raised by the decoder in `step`; the state is as before the cycle (R152). Safe: the spec names
  this error and the state after it. -/
  | decode (e : DecodeError) (after : State)
  /-- `InvalidOperation(funct7)`. Raised by OP (R211); nothing written, the pc past the instruction (R156).
  Safe: the spec names this error and the state after it. -/
  | invalidOperation (funct7 : Funct7) (after : State)
deriving DecidableEq, Repr

/-- The error of a fault. -/
def Fault.error : Fault → CpuError
  | .memory e _ => .memory e
  | .decode e _ => .decode e
  | .invalidOperation f _ => .invalidOperation f

/-- The state a fault leaves, which the host may inspect, repair and continue from (R249). -/
def Fault.after : Fault → State
  | .memory _ s => s
  | .decode _ s => s
  | .invalidOperation _ s => s

/-- Why the model gives no outcome. -/
inductive Refusal where
  /-- The instruction has no meaning in this model yet. Raised by no arm of `exec`: every instruction has its
  meaning. Safe. -/
  | notModelled (mnemonic : String)
deriving DecidableEq, Repr

/-- A core around a memory, right after construction: registers 0, pc 0, idle (R47, R49, R50, R271; the zeros
are the spec's choices D4 and D5, log 2 and log 3). -/
def State.around (m : Memory) : State :=
  ⟨Vector.replicate 32 0x00000000#32, 0x00000000#32, m, .idle⟩

/-- The core right after `construct` (R270), with a new memory of `Config.resetMemorySize` bytes (log 4, log 5). -/
def State.reset : State := State.around ⟨Config.resetMemorySize, []⟩

end Sys2Proof.Machine
end

