-- ==== Sys2Proof/Machine/Ops.lean ====
section
/-! DEFINITION. The named operations over memory, registers and the pc, and the two ways an operation ends: completing it and
raising an error. -/

namespace Sys2Proof.Machine

/-! ## Memory (spec/20_memory.md) -/

/-- The byte that a canonical list of cells holds at an address. -/
def lookupCell : List Host.Cell → Nat → Byte
  | [], _ => Config.unlistedByte
  | (k, b) :: rest, a => if k = a then b else lookupCell rest a

/-- A canonical list of cells with one byte changed: the byte an unlisted address reads as is not listed. -/
def putCell : List Host.Cell → Nat → Byte → List Host.Cell
  | [], a, v => if v = Config.unlistedByte then [] else [(a, v)]
  | (k, b) :: rest, a, v =>
    if a < k then
      if v = Config.unlistedByte then (k, b) :: rest else (a, v) :: (k, b) :: rest
    else if a = k then
      if v = Config.unlistedByte then rest else (a, v) :: rest
    else (k, b) :: putCell rest a v

/-- `Mem[a]` (R60). The checked accessors below are the only way the machine reaches it. -/
def Memory.byteAt (m : Memory) (a : Nat) : Byte := lookupCell m.cells a

/-- `Mem[a] <- b`, with no check. -/
def Memory.putByte (m : Memory) (a : Nat) (b : Byte) : Memory := { m with cells := putCell m.cells a b }

/-- The little-endian word at `a`, with no check (R64). -/
def Memory.wordAt (m : Memory) (a : Nat) : Word :=
  wordOfBytes (m.byteAt a) (m.byteAt (a + 1)) (m.byteAt (a + 2)) (m.byteAt (a + 3))

/-- The four bytes of `v` at `a` to `a + 3`, least-significant first, with no check (R65). -/
def Memory.putWord (m : Memory) (a : Nat) (v : Word) : Memory :=
  (((m.putByte a (byteOfWord v 0)).putByte (a + 1) (byteOfWord v 1)).putByte (a + 2) (byteOfWord v 2)).putByte
    (a + 3) (byteOfWord v 3)

/-- The check of a 4-byte access, in its order and with sums that do not wrap (R63, R14; log 18): the error it
raises, or none when the access is admitted. -/
def Memory.wordError (m : Memory) (a : Word) : Option MemoryError :=
  if m.size ≤ a.toNat then some (.outOfBounds a m.size)
  else if a.toNat % 4 ≠ 0 then some (.unalignedAccess a 4)
  else if m.size < a.toNat + 4 then some (.outOfBounds a m.size)
  else none

/-- `load_word(a)` (R64). -/
def Memory.loadWord (m : Memory) (a : Word) : Except MemoryError Word :=
  match m.wordError a with
  | some e => .error e
  | none => .ok (m.wordAt a.toNat)

/-- `store_word(a, v)` (R65): the new memory, or an error and no new memory. -/
def Memory.storeWord (m : Memory) (a v : Word) : Except MemoryError Memory :=
  match m.wordError a with
  | some e => .error e
  | none => .ok (m.putWord a.toNat v)

/-- The check of a 1-byte access: bounds only (R66, R67). -/
def Memory.byteError (m : Memory) (a : Word) : Option MemoryError :=
  if m.size ≤ a.toNat then some (.outOfBounds a m.size) else none

/-- `load_byte(a)` (R66). -/
def Memory.loadByte (m : Memory) (a : Word) : Except MemoryError Byte :=
  match m.byteError a with
  | some e => .error e
  | none => .ok (m.byteAt a.toNat)

/-- `store_byte(a, b)` (R67). -/
def Memory.storeByte (m : Memory) (a : Word) (b : Byte) : Except MemoryError Memory :=
  match m.byteError a with
  | some e => .error e
  | none => .ok (m.putByte a.toNat b)

/-- `fetch(a)`, an alias for `load_word` (R68). -/
def Memory.fetch (m : Memory) (a : Word) : Except MemoryError Word := m.loadWord a

/-- `mem_new(size)`, with `MAX_MEMORY_SIZE` as an argument (R61, R11): every byte 0x00 (D6, log 4). The payload
of the error is a free value (D21, log 19). -/
def memNew (maxSize size : Nat) : Except MemoryError Memory :=
  if size = 0 ∨ maxSize < size then
    .error (.outOfBounds (Config.memNewErrorAddr maxSize size) (Config.memNewErrorSize maxSize size))
  else .ok ⟨size, []⟩

/-! ## Registers and pc (spec/10_state.md) -/

/-- `x[r]` (R31, R32): slot 0 reads as 0. -/
def State.readReg (s : State) (r : RegIdx) : Word :=
  if r = 0#5 then 0x00000000#32 else s.regs[r.toNat]'r.isLt

/-- `x[r] <- v` (R31, R33): a write to slot 0 is discarded. -/
def State.writeReg (s : State) (r : RegIdx) (v : Word) : State :=
  if r = 0#5 then s else { s with regs := s.regs.set r.toNat v r.isLt }

/-- `pc <- t` (R16). -/
def State.setPc (s : State) (t : Word) : State := { s with pc := t }

/-- The state with another content of its memory. -/
def State.setMem (s : State) (m : Memory) : State := { s with mem := m }

/-- The indicator becomes running (R47). -/
def State.markRunning (s : State) : State := { s with phase := .running }

/-- The last act of a `step` that succeeds: the pc moves past the word, wrapping (R39, R42, R152), and the core is
running (R47; log 30). -/
def State.advance (s : State) : State := (s.setPc (s.pc + 4#32)).markRunning

/-- The fetch of `step` (R152). -/
def State.fetch (s : State) : Except MemoryError Word := s.mem.fetch s.pc

/-! ## How an operation ends -/

/-- An `execute` that returns `Ok(())` with this state (R153, R47). -/
def complete (s : State) : Host.Outcome State Fault Refusal := .next s.markRunning

/-- The fault that carries an error and the state it is raised in. -/
def faultOf (e : CpuError) (s : State) : Fault :=
  match e with
  | .memory e => .memory e s
  | .decode e => .decode e s
  | .invalidOperation f => .invalidOperation f s

/-- TAKING AN ERROR, once for all of them: the operation ends with the typed error; nothing is saved, no mode
changes, no handler is entered and the state is the one it is raised in (R18, R240, R248). There is no return from
it: the host continues from `Fault.after` as it likes (R249; log 1). -/
def raise (e : CpuError) (s : State) : Host.Outcome State Fault Refusal := .fault (faultOf e s)

/-- Write one result to `x[rd]` and complete. -/
def completeWith (rd : RegIdx) (v : Word) (s : State) : Host.Outcome State Fault Refusal :=
  complete (s.writeReg rd v)

/-- Write the link `P + 4` to `x[rd]`, go to `target` and complete (R170, R171). -/
def completeJump (rd : RegIdx) (target : Word) (s : State) : Host.Outcome State Fault Refusal :=
  complete ((s.writeReg rd (s.pc + 4#32)).setPc target)

end Sys2Proof.Machine
end

