-- ==== Sys2Proof/Machine/Flags.lean ====
section
/-! DEFINITION. The core has no status flags and no instruction writes one (spec/10_state.md R43); this file holds what stands in
their place, the condition that BRANCH computes from two registers. -/

namespace Sys2Proof.Machine

/-- The one branch condition, equality of two registers, whatever funct3 was encoded (R118, R200). -/
def registersEqual (rs1 rs2 : RegIdx) (s : State) : Bool := s.readReg rs1 == s.readReg rs2

end Sys2Proof.Machine
end

