-- ==== Sys2Proof/Machine/Operands.lean ====
section
/-! DEFINITION. The operand forms: an address in memory, the targets of a jump or a branch, and the arithmetic of the ALU. -/

namespace Sys2Proof.Machine

/-! ## Addresses and targets -/

/-- The one addressing mode, base plus displacement, wrapping (R190). -/
def effectiveAddress (rs1 : RegIdx) (imm : Word) (s : State) : Word := s.readReg rs1 + imm

/-- A target relative to the pc that execute starts with (R170, R200; log 15). -/
def relativeTarget (imm : Word) (s : State) : Word := s.pc + imm

/-- The target of JALR: bit 0 cleared, bit 1 kept (R171). -/
def absoluteTarget (rs1 : RegIdx) (imm : Word) (s : State) : Word :=
  (s.readReg rs1 + imm) &&& 0xFFFFFFFE#32

/-! ## Arithmetic (R14, R181, R210 to R216) -/

/-- SHIFT_IMM: an arithmetic right shift when the flag is set, otherwise a left shift (R181, C1; log 11). -/
def shiftResult (a : Word) (shamt : Shamt) (arithmetic : Bool) : Word :=
  if arithmetic then a.sshiftRight shamt.toNat else a <<< shamt.toNat

/-- OP: the sum for funct7 0x00, the difference for 0x20, nothing for another (R211). -/
def opResult (funct7 : Funct7) (a b : Word) : Option Word :=
  if funct7 = 0x00#7 then some (a + b)
  else if funct7 = 0x20#7 then some (a - b)
  else none

/-- MUL: the low 32 bits of the product (R212). -/
def mulResult (a b : Word) : Word := a * b

/-- The one operand pair whose signed quotient does not fit (R210, R213). -/
def divOverflows (a b : Word) : Bool := a == 0x80000000#32 && b == 0xFFFFFFFF#32

/-- DIV: the quotient rounded toward zero (R213; rounding PRESUMED by the spec, log 17). -/
def divResult (a b : Word) : Word :=
  if b = 0#32 then 0xFFFFFFFF#32
  else if divOverflows a b then 0x80000000#32
  else BitVec.ofInt 32 (Int.tdiv a.toInt b.toInt)

/-- DIVU (R214). -/
def divuResult (a b : Word) : Word :=
  if b = 0#32 then 0xFFFFFFFF#32 else BitVec.ofNat 32 (a.toNat / b.toNat)

/-- REM: the dividend less the divisor times the quotient of DIV (R215; log 17). -/
def remResult (a b : Word) : Word :=
  if b = 0#32 then a
  else if divOverflows a b then 0#32
  else BitVec.ofInt 32 (a.toInt - b.toInt * Int.tdiv a.toInt b.toInt)

/-- REMU (R216). -/
def remuResult (a b : Word) : Word :=
  if b = 0#32 then a else BitVec.ofNat 32 (a.toNat % b.toNat)

end Sys2Proof.Machine
end

