-- ==== Sys2Proof/Machine/Branch.lean ====
section
/-! DEFINITION. BRANCH (spec/45_branch.md). -/

namespace Sys2Proof.Machine

/-- BRANCH (R200): an equality test whatever funct3 was encoded; not taken, the pc stays. -/
def execBranch (rs1 rs2 : RegIdx) (imm : Word) (s : State) : Host.Outcome State Fault Refusal :=
  complete (if registersEqual rs1 rs2 s then s.setPc (relativeTarget imm s) else s)

end Sys2Proof.Machine
end

