-- ==== Sys2Proof/Machine/ImmediateAlu.lean ====
section
/-! DEFINITION. OP_IMM and SHIFT_IMM (spec/43_immediate_alu.md). -/

namespace Sys2Proof.Machine

/-- OP_IMM (R180). -/
def execOpImm (rd rs1 : RegIdx) (imm : Word) (s : State) : Host.Outcome State Fault Refusal :=
  completeWith rd (s.readReg rs1 + imm) s

/-- SHIFT_IMM (R181). -/
def execShiftImm (rd rs1 : RegIdx) (shamt : Shamt) (arithmetic : Bool) (s : State) :
    Host.Outcome State Fault Refusal :=
  completeWith rd (shiftResult (s.readReg rs1) shamt arithmetic) s

end Sys2Proof.Machine
end

