-- ==== Sys2Proof/Machine/Jump.lean ====
section
/-! DEFINITION. JAL and JALR (spec/42_jumps.md). The target is not checked here: a bad one shows at the next fetch (R172). -/

namespace Sys2Proof.Machine

/-- JAL (R170). -/
def execJal (rd : RegIdx) (imm : Word) (s : State) : Host.Outcome State Fault Refusal :=
  completeJump rd (relativeTarget imm s) s

/-- JALR (R171): the target uses `x[rs1]` as it was before the link is written (R155; log 16). -/
def execJalr (rd rs1 : RegIdx) (imm : Word) (s : State) : Host.Outcome State Fault Refusal :=
  completeJump rd (absoluteTarget rs1 imm s) s

end Sys2Proof.Machine
end

