-- ==== Sys2Proof/Machine/LoadStore.lean ====
section
/-! DEFINITION. LOAD and STORE, whole words only (spec/44_load_store.md). -/

namespace Sys2Proof.Machine

/-- LOAD (R191): with `rd = 0` the checked read is still made and can raise. -/
def execLoad (rd rs1 : RegIdx) (imm : Word) (s : State) : Host.Outcome State Fault Refusal :=
  match s.mem.loadWord (effectiveAddress rs1 imm s) with
  | .ok v => completeWith rd v s
  | .error e => raise (.memory e) s

/-- STORE (R192). -/
def execStore (rs1 rs2 : RegIdx) (imm : Word) (s : State) : Host.Outcome State Fault Refusal :=
  match s.mem.storeWord (effectiveAddress rs1 imm s) (s.readReg rs2) with
  | .ok m => complete (s.setMem m)
  | .error e => raise (.memory e) s

end Sys2Proof.Machine
end

