-- ==== Sys2Proof/Machine/RegisterAlu.lean ====
section
/-! DEFINITION. OP, MUL, DIV, DIVU, REM and REMU (spec/46_register_alu.md). -/

namespace Sys2Proof.Machine

/-- OP (R211): an undefined funct7 raises even with `rd = 0` (C2; log 13). -/
def execOp (rd rs1 rs2 : RegIdx) (funct7 : Funct7) (s : State) : Host.Outcome State Fault Refusal :=
  match opResult funct7 (s.readReg rs1) (s.readReg rs2) with
  | some v => completeWith rd v s
  | none => raise (.invalidOperation funct7) s

/-- MUL (R212). -/
def execMul (rd rs1 rs2 : RegIdx) (s : State) : Host.Outcome State Fault Refusal :=
  completeWith rd (mulResult (s.readReg rs1) (s.readReg rs2)) s

/-- DIV (R213). -/
def execDiv (rd rs1 rs2 : RegIdx) (s : State) : Host.Outcome State Fault Refusal :=
  completeWith rd (divResult (s.readReg rs1) (s.readReg rs2)) s

/-- DIVU (R214). -/
def execDivu (rd rs1 rs2 : RegIdx) (s : State) : Host.Outcome State Fault Refusal :=
  completeWith rd (divuResult (s.readReg rs1) (s.readReg rs2)) s

/-- REM (R215). -/
def execRem (rd rs1 rs2 : RegIdx) (s : State) : Host.Outcome State Fault Refusal :=
  completeWith rd (remResult (s.readReg rs1) (s.readReg rs2)) s

/-- REMU (R216). -/
def execRemu (rd rs1 rs2 : RegIdx) (s : State) : Host.Outcome State Fault Refusal :=
  completeWith rd (remuResult (s.readReg rs1) (s.readReg rs2)) s

end Sys2Proof.Machine
end

