-- ==== Sys2Proof/Machine/System.lean ====
section
/-! DEFINITION. ECALL and EBREAK (spec/47_system.md), and the table's two decode-error classes (spec/30_encoding.md R123, R124). -/

namespace Sys2Proof.Machine

/-- ECALL (R230): no operation. It does not trap, change mode or halt; the host may act on it between operations. -/
def execEcall (s : State) : Host.Outcome State Fault Refusal := complete s

/-- EBREAK (R231): no operation. -/
def execEbreak (s : State) : Host.Outcome State Fault Refusal := complete s

/-- A word of the class `InvalidInstruction`: the decoder's error, nothing changed (R119, R121, R152, R232). -/
def execInvalidInstruction (word : Word) (s : State) : Host.Outcome State Fault Refusal :=
  raise (.decode (.invalidInstruction word)) s

/-- A word of the class `UnknownOpcode`: the decoder's error, nothing changed (R122, R152). -/
def execUnknownOpcode (opcode : BitVec 7) (s : State) : Host.Outcome State Fault Refusal :=
  raise (.decode (.unknownOpcode opcode)) s

end Sys2Proof.Machine
end

