-- ==== Sys2Proof/Machine/UpperImmediate.lean ====
section
/-! DEFINITION. LUI and AUIPC (spec/41_upper_immediate.md). -/

namespace Sys2Proof.Machine

/-- LUI (R160). -/
def execLui (rd : RegIdx) (imm : Word) (s : State) : Host.Outcome State Fault Refusal :=
  completeWith rd imm s

/-- AUIPC (R161): relative to the pc that execute starts with. -/
def execAuipc (rd : RegIdx) (imm : Word) (s : State) : Host.Outcome State Fault Refusal :=
  completeWith rd (s.pc + imm) s

end Sys2Proof.Machine
end

