-- ==== Sys2Proof/Machine/Dispatch.lean ====
section
/-! DEFINITION. The spec's `execute(d)` (spec/40_cycle.md R153): one arm per mnemonic of the opcode table. The pc of the state is
the P of every rule. -/

namespace Sys2Proof.Machine

/-- `execute(d)`: applies a decoded instruction to registers, memory and pc (R153). -/
def exec (i : Instr) (s : State) : Host.Outcome State Fault Refusal :=
  match i with
  | .lui rd imm => Sys2Proof.Machine.execLui rd imm s
  | .auipc rd imm => Sys2Proof.Machine.execAuipc rd imm s
  | .jal rd imm => Sys2Proof.Machine.execJal rd imm s
  | .jalr rd rs1 imm => Sys2Proof.Machine.execJalr rd rs1 imm s
  | .load rd rs1 imm => Sys2Proof.Machine.execLoad rd rs1 imm s
  | .shiftImm rd rs1 shamt arithmetic => Sys2Proof.Machine.execShiftImm rd rs1 shamt arithmetic s
  | .opImm rd rs1 imm => Sys2Proof.Machine.execOpImm rd rs1 imm s
  | .store rs1 rs2 imm => Sys2Proof.Machine.execStore rs1 rs2 imm s
  | .branch rs1 rs2 imm => Sys2Proof.Machine.execBranch rs1 rs2 imm s
  | .op rd rs1 rs2 funct7 => Sys2Proof.Machine.execOp rd rs1 rs2 funct7 s
  | .mul rd rs1 rs2 => Sys2Proof.Machine.execMul rd rs1 rs2 s
  | .div rd rs1 rs2 => Sys2Proof.Machine.execDiv rd rs1 rs2 s
  | .divu rd rs1 rs2 => Sys2Proof.Machine.execDivu rd rs1 rs2 s
  | .rem rd rs1 rs2 => Sys2Proof.Machine.execRem rd rs1 rs2 s
  | .remu rd rs1 rs2 => Sys2Proof.Machine.execRemu rd rs1 rs2 s
  | .ecall => Sys2Proof.Machine.execEcall s
  | .ebreak => Sys2Proof.Machine.execEbreak s
  | .invalidInstruction word => Sys2Proof.Machine.execInvalidInstruction word s
  | .unknownOpcode opcode => Sys2Proof.Machine.execUnknownOpcode opcode s

end Sys2Proof.Machine
end

