-- ==== Sys2Proof/Machine/Step.lean ====
section
/-! DEFINITION. The instruction cycle (spec/40_cycle.md R154), which the host calls the machine's step; the spec's own `step()` is
`fetchDecodeAdvance` in Machine/HostInterface.lean (C4; log 21). -/

namespace Sys2Proof.Machine

/-- One cycle: fetch, decode, move the pc past the word, execute (R152 to R154). A fetch or decode error leaves the
pc where it was; an execute error leaves it past the word (R156; log 20). -/
def step (s : State) : Host.Outcome State Fault Refusal :=
  match s.fetch with
  | .error e => raise (.memory e) s
  | .ok w =>
    match decode w with
    | .error e => exec e.row s
    | .ok i => exec i s.advance

/-- The state with an instruction stored where `step` fetches next: at the pc, as the host would store it (R273; log 25).
Where nothing can be fetched at the pc, nothing can be stored there either, and the state is unchanged. -/
def State.withFetchWord (s : State) (nbits w : Nat) : State :=
  match s.mem.storeWord s.pc (BitVec.ofNat 32 (w % 2 ^ nbits)) with
  | .ok m => s.setMem m
  | .error _ => s

end Sys2Proof.Machine
end

