-- ==== Sys2Proof/Machine/HostInterface.lean ====
section
/-! DEFINITION. The host's operations on a core (spec/00_scope.md R7, R8): each one atomic, from a state to a reply and a state
(log 29). -/

namespace Sys2Proof.Machine

/-! ## Construction (spec/70_reset_and_hazards.md R270 to R272) -/

/-- `construct(mem_size)` with `MAX_MEMORY_SIZE` as an argument (R270, R11). -/
def construct (maxSize memSize : Nat) : Except MemoryError State :=
  match memNew maxSize memSize with
  | .ok m => .ok (State.around m)
  | .error e => .error e

/-- `construct_with(memory)` (R271): the memory's contents are unchanged. -/
def constructWith (m : Memory) : State := State.around m

/-! ## The spec's `step` (spec/40_cycle.md R152) -/

/-- `step()`: fetch, decode, move the pc; the instruction is returned and not executed. On an error the state is
the one before. -/
def fetchDecodeAdvance (s : State) : Except CpuError (Instr × State) :=
  match s.fetch with
  | .error e => .error (.memory e)
  | .ok w =>
    match decode w with
    | .error e => .error (.decode e)
    | .ok i => .ok (i, s.advance)

/-! ## The operations on an existing core (R7) -/

/-- An operation of the host on a core. An index or field out of range cannot be written (R34, R151; log 22). -/
inductive HostOp where
  /-- `load_word(addr)` (R64). -/
  | loadWord (addr : Word)
  /-- `store_word(addr, v)` (R65). -/
  | storeWord (addr v : Word)
  /-- `load_byte(addr)` (R66). -/
  | loadByte (addr : Word)
  /-- `store_byte(addr, v)` (R67). -/
  | storeByte (addr : Word) (v : Byte)
  /-- `fetch(addr)` (R68). -/
  | fetch (addr : Word)
  /-- `read_reg(i)` (R34). -/
  | readReg (i : RegIdx)
  /-- `write_reg(i, v)` (R34). -/
  | writeReg (i : RegIdx) (v : Word)
  /-- `step()` (R152). -/
  | step
  /-- `execute(instr)` (R153), with any instruction, the host's own too (R157). -/
  | execute (d : Instr)
  /-- `read_pc()` (R41). -/
  | readPc
  /-- `set_pc(v)` (R41). -/
  | setPc (v : Word)
deriving DecidableEq, Repr

/-- What an operation returns: `Ok` with a value, or `Err` with a typed error (R9). The accessors of memory fail with
a MemoryError, step and execute with a CPUError. -/
inductive HostReply where
  | unit
  | word (v : Word)
  | byte (b : Byte)
  | instr (d : Instr)
  | memoryError (e : MemoryError)
  | cpuError (e : CpuError)
  | refused (r : Refusal)
deriving DecidableEq, Repr

/-- The reply and the state after one operation (R8). An operation that fails leaves the state it found (R156, R248). -/
def hostOp (o : HostOp) (s : State) : HostReply × State :=
  match o with
  | .loadWord a =>
    match s.mem.loadWord a with
    | .ok v => (.word v, s)
    | .error e => (.memoryError e, s)
  | .storeWord a v =>
    match s.mem.storeWord a v with
    | .ok m => (.unit, s.setMem m)
    | .error e => (.memoryError e, s)
  | .loadByte a =>
    match s.mem.loadByte a with
    | .ok b => (.byte b, s)
    | .error e => (.memoryError e, s)
  | .storeByte a b =>
    match s.mem.storeByte a b with
    | .ok m => (.unit, s.setMem m)
    | .error e => (.memoryError e, s)
  | .fetch a =>
    match s.mem.fetch a with
    | .ok v => (.word v, s)
    | .error e => (.memoryError e, s)
  | .readReg i => (.word (s.readReg i), s)
  | .writeReg i v => (.unit, s.writeReg i v)
  | .step =>
    match fetchDecodeAdvance s with
    | .ok (d, t) => (.instr d, t)
    | .error e => (.cpuError e, s)
  | .execute d =>
    match exec d s with
    | .next t => (.unit, t)
    | .fault f => (.cpuError f.error, f.after)
    | .refused r => (.refused r, s)
  | .readPc => (.word s.pc, s)
  | .setPc v => (.unit, s.setPc v)

/-! ## The host's duties (spec/70_reset_and_hazards.md R292) -/

/-- Whether an operation is the host's `set_pc`. -/
def HostOp.setsPc : HostOp → Bool
  | .setPc _ => true
  | .loadWord _ | .storeWord _ _ | .loadByte _ | .storeByte _ _ | .fetch _ | .readReg _ | .writeReg _ _ | .step
  | .execute _ | .readPc => false

/-- A core in the hands of its host. `pcSet` records that the host has called `set_pc`: it belongs to the host's protocol and
is no state of the core, which has none beyond `State` (R48; log 33). -/
structure Session where
  core : State
  pcSet : Bool
deriving DecidableEq, Repr

/-- A session with a core just constructed: its pc is not set yet (R270, R271). -/
def Session.fresh (s : State) : Session := ⟨s, false⟩

/-- The moves the host has: every operation at any time, but no `step` before the first `set_pc` (R292; log 33). Its other
duties need no check: a session is one core, its operations come one after another, and none of them changes the memory's
size. -/
def Session.move (h : Session) (o : HostOp) : Option (HostReply × Session) :=
  if o = .step ∧ h.pcSet = false then none
  else some ((hostOp o h.core).1, ⟨(hostOp o h.core).2, h.pcSet || o.setsPc⟩)

/-- A sequence of moves, when the host has all of them. -/
def Session.moves : Session → List HostOp → Option Session
  | h, [] => some h
  | h, o :: os =>
    match h.move o with
    | some (_, h') => h'.moves os
    | none => none

end Sys2Proof.Machine
end

