-- ==== Sys2Proof/Machine/Elf.lean ====
section
/-! DEFINITION. The host's ELF32 loader and boot (spec/70_reset_and_hazards.md R273 to R285). It is not part of the core
(spec/00_scope.md R5(g)); it decides the image and the entry a core starts from. -/

namespace Sys2Proof.Machine

/-- The loader's errors (R282). The payloads of Io and Parse are not part of the spec's model. -/
inductive ElfError where
  | io
  | parse
  | unsupportedFormat (cls encoding : Byte)
  | segmentOutOfBounds (paddr memsz : Word)
deriving DecidableEq, Repr

/-- Loads that have no outcome (R280, C8; log 27). -/
inductive LoadRefusal where
  /-- A segment's file size is larger than its memory size (R280). -/
  | fileSizeAboveMemorySize
  /-- A segment's file range goes past the end of the file (R280). -/
  | fileRangePastEnd
deriving DecidableEq, Repr

/-- What loading one segment stops on. -/
inductive SegmentStop where
  | error (e : ElfError)
  | refused (r : LoadRefusal)
deriving DecidableEq, Repr

/-- What a load ends in: the entry address and the loaded memory; an error and the memory it leaves (R281; log 28); or
no outcome. -/
inductive LoadOutcome where
  | loaded (entry : Word) (m : Memory)
  | failed (e : ElfError) (m : Memory)
  | refused (r : LoadRefusal)
deriving DecidableEq, Repr

/-- The fields of a program header that the loader uses (R277). -/
structure ProgramHeader where
  type : Word
  offset : Word
  paddr : Word
  filesz : Word
  memsz : Word
deriving DecidableEq, Repr

/-- The little-endian u32 of the file at an offset (R284). -/
def fileWord (buf : List Byte) (o : Nat) : Word :=
  wordOfBytes (buf.getD o 0#8) (buf.getD (o + 1) 0#8) (buf.getD (o + 2) 0#8) (buf.getD (o + 3) 0#8)

/-- The little-endian u16 of the file at an offset (R284). -/
def fileHalf (buf : List Byte) (o : Nat) : BitVec 16 := buf.getD (o + 1) 0#8 ++ buf.getD o 0#8

/-- `e_entry`, `e_phoff`, `e_phentsize` and `e_phnum` stand at 24, 28, 42 and 44 (R284; PRESUMED by the spec, log 26). -/
def elfEntry (buf : List Byte) : Word := fileWord buf 24

/-- Where each program header starts in the file (R284; log 26). -/
def programHeaderOffsets (buf : List Byte) : List Nat :=
  (List.range (fileHalf buf 44).toNat).map (fun i => (fileWord buf 28).toNat + i * (fileHalf buf 42).toNat)

/-- The program header at an offset of the file (R284; log 26). -/
def programHeaderAt (buf : List Byte) (o : Nat) : ProgramHeader :=
  { type := fileWord buf o, offset := fileWord buf (o + 4), paddr := fileWord buf (o + 12),
    filesz := fileWord buf (o + 16), memsz := fileWord buf (o + 20) }

/-- The early check of class and encoding, made when the file has their bytes (R275; log 26). -/
def formatUnsupported (buf : List Byte) : Bool :=
  decide (6 ≤ buf.length) && !(buf.getD 4 0#8 == 1#8 && buf.getD 5 0#8 == 1#8)

/-- The full parse: the spec's minimum, which is the magic, a 52-byte header and the program header table inside the file
(R276), and every program header inside the file (DEDUCED from C8, which leaves a malformed file no end but a typed error;
log 26). DESIGN CHOICE: a table of no bytes that starts past the end of the file does not lie inside it (log 26). -/
def structureParses (buf : List Byte) : Bool :=
  decide (52 ≤ buf.length) && buf.take 4 == [0x7F#8, 0x45#8, 0x4C#8, 0x46#8]
    && decide ((fileWord buf 28).toNat + (fileHalf buf 44).toNat * (fileHalf buf 42).toNat ≤ buf.length)
    && (programHeaderOffsets buf).all (fun o => decide (o + 32 ≤ buf.length))

/-- Consecutive bytes from `a` on. -/
def Memory.putBytes : Memory → Nat → List Byte → Memory
  | m, _, [] => m
  | m, a, b :: bs => (m.putByte a b).putBytes (a + 1) bs

/-- The bytes a segment puts in memory: its file bytes, then zeros up to its memory size (R279). -/
def segmentBytes (buf : List Byte) (p : ProgramHeader) : List Byte :=
  (buf.drop p.offset.toNat).take p.filesz.toNat ++ List.replicate (p.memsz.toNat - p.filesz.toNat) 0x00#8

/-- One PT_LOAD segment: bounds first (R278), the loads without an outcome (R280), copy and zero-fill (R279).
DESIGN CHOICE: a file range of no bytes that starts past the end of the file goes past it, so that load is refused too
(log 27). -/
def loadSegment (buf : List Byte) (p : ProgramHeader) (m : Memory) : Except SegmentStop Memory :=
  if m.size < p.paddr.toNat + p.memsz.toNat then .error (.error (.segmentOutOfBounds p.paddr p.memsz))
  else if p.memsz.toNat < p.filesz.toNat then .error (.refused .fileSizeAboveMemorySize)
  else if buf.length < p.offset.toNat + p.filesz.toNat then .error (.refused .fileRangePastEnd)
  else .ok (m.putBytes p.paddr.toNat (segmentBytes buf p))

/-- The segments in program-header order, only those of type PT_LOAD = 1 (R277, R281). -/
def loadSegments (buf : List Byte) : List Nat → Memory → LoadOutcome
  | [], m => .loaded (elfEntry buf) m
  | o :: rest, m =>
    if (programHeaderAt buf o).type ≠ 1#32 then loadSegments buf rest m
    else
      match loadSegment buf (programHeaderAt buf o) m with
      | .ok m' => loadSegments buf rest m'
      | .error (.error e) => .failed e m
      | .error (.refused r) => .refused r

/-- `load_elf(path, memory)` (R274 to R283). `file` is what reading the path gave: nothing when it could not be read.
`parseOk` is the parameter `ELF_PARSE_OK` (R276). -/
def loadElf (parseOk : List Byte → Bool) (file : Option (List Byte)) (m : Memory) : LoadOutcome :=
  match file with
  | none => .failed .io m
  | some buf =>
    if formatUnsupported buf then .failed (.unsupportedFormat (buf.getD 4 0#8) (buf.getD 5 0#8)) m
    else if structureParses buf && parseOk buf then loadSegments buf (programHeaderOffsets buf) m
    else .failed .parse m

/-- How a boot ends (R273). -/
inductive BootOutcome where
  | launched (h : Session)
  | noMemory (e : MemoryError)
  | notLoaded (e : ElfError)
  | refused (r : LoadRefusal)
deriving DecidableEq, Repr

/-- The boot order of R273, steps 1 to 3: create the memory, load the image, build the core around it and set the pc to
the entry. Entry registers are the host's to write (R285). -/
def boot (maxSize memSize : Nat) (parseOk : List Byte → Bool) (file : Option (List Byte)) : BootOutcome :=
  match memNew maxSize memSize with
  | .error e => .noMemory e
  | .ok m =>
    match loadElf parseOk file m with
    | .loaded entry m' => .launched ⟨(constructWith m').setPc entry, true⟩
    | .failed e _ => .notLoaded e
    | .refused r => .refused r

end Sys2Proof.Machine
end

