-- ==== Sys2Proof/Machine/Run.lean ====
section
/-! DEFINITION. A run of cycles with the host's stop condition and step budget (spec/70_reset_and_hazards.md R291; log 21). -/

namespace Sys2Proof.Machine

/-- Where the host looks at its stop condition: between cycles, or before a cycle's execute (R291(b)). -/
inductive StopPoint where
  | betweenCycles
  | beforeExecute
deriving DecidableEq, Repr

/-- How a run ends (R291). -/
inductive RunEnd where
  /-- (a) A cycle returned an error. -/
  | fault (f : Fault)
  /-- The model gave a cycle no outcome: it never does. -/
  | refused (r : Refusal)
  /-- (b) The stop condition held, in this state. -/
  | stopped (s : State)
  /-- (c) The budget was used up: not a final state. -/
  | outOfFuel (s : State)
deriving DecidableEq, Repr

/-- A run of at most `fuel` cycles. `stop` is the parameter `STOP`: a predicate on where the host looks, the core's
state and the instruction the last `step` returned (none at launch); the number is `FUEL`. -/
def runCycles (stop : StopPoint → State → Option Instr → Bool) : Nat → Option Instr → State → RunEnd
  | 0, last, s => if stop .betweenCycles s last then .stopped s else .outOfFuel s
  | fuel + 1, last, s =>
    if stop .betweenCycles s last then .stopped s
    else
      match fetchDecodeAdvance s with
      | .error e => .fault (faultOf e s)
      | .ok (d, p) =>
        if stop .beforeExecute p (some d) then .stopped p
        else
          match exec d p with
          | .next t => runCycles stop fuel (some d) t
          | .fault f => .fault f
          | .refused r => .refused r

/-- A run from a launch state (R273, R291): the host issues it only once it has set the pc (R292; log 33). -/
def Session.run (stop : StopPoint → State → Option Instr → Bool) (fuel : Nat) (h : Session) : Option RunEnd :=
  if h.pcSet = true then some (runCycles stop fuel none h.core) else none

end Sys2Proof.Machine
end

