-- ==== Sys2Proof/Safety.lean ====
section
/-! DEFINITION. The terms in which claims are stated: what every state of a core satisfies, what an instruction names, and what it
leaves unchanged. -/

namespace Sys2Proof.Machine

/-- What holds of every core: its memory is in its canonical form and within bounds (R11, R62), and slot 0 of the
register file holds the zero it reads as (R31). -/
def State.Inv (s : State) : Prop := s.mem.wf ∧ s.regs[0] = 0x00000000#32

/-- The capacity invariant of R62. -/
def State.Fits (maxSize : Nat) (s : State) : Prop := 1 ≤ s.mem.size ∧ s.mem.size ≤ maxSize

/-- The register an instruction writes (R35). -/
def destination : Instr → Option RegIdx
  | .lui rd _ => some rd
  | .auipc rd _ => some rd
  | .jal rd _ => some rd
  | .jalr rd _ _ => some rd
  | .load rd _ _ => some rd
  | .shiftImm rd _ _ _ => some rd
  | .opImm rd _ _ => some rd
  | .store _ _ _ => none
  | .branch _ _ _ => none
  | .op rd _ _ _ => some rd
  | .mul rd _ _ => some rd
  | .div rd _ _ => some rd
  | .divu rd _ _ => some rd
  | .rem rd _ _ => some rd
  | .remu rd _ _ => some rd
  | .ecall => none
  | .ebreak => none
  | .invalidInstruction _ => none
  | .unknownOpcode _ => none

/-- The same instruction with another destination register, where it has one. -/
def withDestination (q : RegIdx) : Instr → Instr
  | .lui _ imm => .lui q imm
  | .auipc _ imm => .auipc q imm
  | .jal _ imm => .jal q imm
  | .jalr _ rs1 imm => .jalr q rs1 imm
  | .load _ rs1 imm => .load q rs1 imm
  | .shiftImm _ rs1 shamt arithmetic => .shiftImm q rs1 shamt arithmetic
  | .opImm _ rs1 imm => .opImm q rs1 imm
  | .store rs1 rs2 imm => .store rs1 rs2 imm
  | .branch rs1 rs2 imm => .branch rs1 rs2 imm
  | .op _ rs1 rs2 funct7 => .op q rs1 rs2 funct7
  | .mul _ rs1 rs2 => .mul q rs1 rs2
  | .div _ rs1 rs2 => .div q rs1 rs2
  | .divu _ rs1 rs2 => .divu q rs1 rs2
  | .rem _ rs1 rs2 => .rem q rs1 rs2
  | .remu _ rs1 rs2 => .remu q rs1 rs2
  | .ecall => .ecall
  | .ebreak => .ebreak
  | .invalidInstruction word => .invalidInstruction word
  | .unknownOpcode opcode => .unknownOpcode opcode

/-- The registers an instruction reads (R35). -/
def sources : Instr → List RegIdx
  | .lui _ _ => []
  | .auipc _ _ => []
  | .jal _ _ => []
  | .jalr _ rs1 _ => [rs1]
  | .load _ rs1 _ => [rs1]
  | .shiftImm _ rs1 _ _ => [rs1]
  | .opImm _ rs1 _ => [rs1]
  | .store rs1 rs2 _ => [rs1, rs2]
  | .branch rs1 rs2 _ => [rs1, rs2]
  | .op _ rs1 rs2 _ => [rs1, rs2]
  | .mul _ rs1 rs2 => [rs1, rs2]
  | .div _ rs1 rs2 => [rs1, rs2]
  | .divu _ rs1 rs2 => [rs1, rs2]
  | .rem _ rs1 rs2 => [rs1, rs2]
  | .remu _ rs1 rs2 => [rs1, rs2]
  | .ecall => []
  | .ebreak => []
  | .invalidInstruction _ => []
  | .unknownOpcode _ => []

/-- JAL, JALR and BRANCH: the instructions that write the pc (R39). -/
def redirects : Instr → Bool
  | .jal _ _ => true
  | .jalr _ _ _ => true
  | .branch _ _ _ => true
  | .lui _ _ | .auipc _ _ | .load _ _ _ | .shiftImm _ _ _ _ | .opImm _ _ _ | .store _ _ _ | .op _ _ _ _
  | .mul _ _ _ | .div _ _ _ | .divu _ _ _ | .rem _ _ _ | .remu _ _ _ | .ecall | .ebreak
  | .invalidInstruction _ | .unknownOpcode _ => false

/-- STORE: the one instruction that writes memory (R73). -/
def storesWord : Instr → Bool
  | .store _ _ _ => true
  | .lui _ _ | .auipc _ _ | .jal _ _ | .jalr _ _ _ | .load _ _ _ | .shiftImm _ _ _ _ | .opImm _ _ _
  | .branch _ _ _ | .op _ _ _ _ | .mul _ _ _ | .div _ _ _ | .divu _ _ _ | .rem _ _ _ | .remu _ _ _ | .ecall
  | .ebreak | .invalidInstruction _ | .unknownOpcode _ => false

/-- LOAD, STORE and OP: the instructions that can raise at execute (R244). -/
def canRaise : Instr → Bool
  | .load _ _ _ => true
  | .store _ _ _ => true
  | .op _ _ _ _ => true
  | .lui _ _ | .auipc _ _ | .jal _ _ | .jalr _ _ _ | .shiftImm _ _ _ _ | .opImm _ _ _ | .branch _ _ _
  | .mul _ _ _ | .div _ _ _ | .divu _ _ _ | .rem _ _ _ | .remu _ _ _ | .ecall | .ebreak
  | .invalidInstruction _ | .unknownOpcode _ => false

/-- `x[rd]` holds a written value: the value, or 0 for `x[0]`, whose write is discarded (R31). -/
def Holds (t : State) (rd : RegIdx) (v : Word) : Prop :=
  t.readReg rd = if rd = 0#5 then 0x00000000#32 else v

/-- Every register but one reads as before. -/
def RegistersSameBut (rd : RegIdx) (s t : State) : Prop := ∀ r, r ≠ rd → t.readReg r = s.readReg r

/-- Every register reads as before. -/
def RegistersSame (s t : State) : Prop := ∀ r, t.readReg r = s.readReg r

/-- The memory has its size and every byte reads as before. -/
def MemorySame (s t : State) : Prop :=
  t.mem.size = s.mem.size ∧ ∀ a, t.mem.byteAt a = s.mem.byteAt a

/-- `t` is `s` after an instruction whose only effect is to write `v` to `x[rd]` (and the indicator of R47): every other
register, the pc and every byte of memory are as before. -/
def WritesOnly (rd : RegIdx) (v : Word) (s t : State) : Prop :=
  Holds t rd v ∧ RegistersSameBut rd s t ∧ t.pc = s.pc ∧ MemorySame s t ∧ t.phase = .running

/-- A 4-byte access at `a` is admitted (R63): inside memory and aligned. -/
def Admitted (m : Memory) (a : Word) : Prop := a.toNat + 4 ≤ m.size ∧ a.toNat % 4 = 0

/-- A run of `n` cycles with no error: what "safe" means on a core whose only way to go wrong is to return one (R240). -/
def SafeFor : Nat → State → Prop
  | 0, _ => True
  | n + 1, s => ∃ t, step s = .next t ∧ SafeFor n t

end Sys2Proof.Machine
end

