-- ==== Sys2Proof/Certificates/Slice0/Obligations.lean ====
section
/-! DEFINITION. The statements about this model, one definition each, for the provers. A name of spec/ in a docstring is the rule the
statement formalises; `D<n>` is a decision of spec/92_eei_decisions.md, which is the spec's own choice. -/

open Sys2Proof Sys2Proof.Machine

/-! ## Registers, construction -/

/-- R31. `x[0]` reads as 0 in every state; a write to it by the host or as an instruction's destination changes no
register and raises nothing: an instruction whose destination is `x[0]` raises exactly what it raises with any other
destination. -/
def Obligations.RegisterZeroIsHardwired : Prop :=
  ∀ (s : State) (v : Word),
    s.readReg 0#5 = 0x00000000#32
      ∧ hostOp (.writeReg 0#5 v) s = (.unit, s)
      ∧ (∀ (i : Instr) (t : State), destination i = some 0#5 → exec i s = .next t → RegistersSame s t)
      ∧ ∀ (i : Instr) (q : RegIdx) (f : Fault), destination i = some 0#5 →
          destination (withDestination q i) = some q
            ∧ (exec i s = .fault f ↔ exec (withDestination q i) s = .fault f)

/-- R33. `x[i] <- v` sets register `i` and nothing else when `i` is not 0, and does nothing when it is; of the two halves
of a cycle only execute writes registers. -/
def Obligations.RegisterWriteSetsOneRegister : Prop :=
  ∀ (s : State) (i : RegIdx) (v : Word),
    (i ≠ 0#5 → (s.writeReg i v).readReg i = v)
      ∧ (i = 0#5 → s.writeReg i v = s)
      ∧ RegistersSameBut i s (s.writeReg i v)
      ∧ (s.writeReg i v).pc = s.pc ∧ (s.writeReg i v).mem = s.mem ∧ (s.writeReg i v).phase = s.phase
      ∧ ∀ (d : Instr) (t : State), fetchDecodeAdvance s = .ok (d, t) → RegistersSame s t

/-- Decisions D4, D5, D6 (log 2, 3, 4) and the size this model chooses (log 5): after construction every register
reads 0, the pc is 0, every byte is 0x00 and the core is idle; `State.reset` is the core that construction gives when
the size it names is allowed. -/
def Obligations.ConstructionLeavesTheInitialState : Prop :=
  (∀ (maxSize memSize : Nat) (s : State), construct maxSize memSize = .ok s →
      (∀ r, s.readReg r = 0x00000000#32) ∧ s.pc = 0x00000000#32 ∧ (∀ a, s.mem.byteAt a = 0x00#8)
        ∧ s.mem.size = memSize ∧ s.phase = .idle)
    ∧ ∀ maxSize : Nat, 0x400 ≤ maxSize → construct maxSize 0x400 = .ok State.reset

/-- R61 with D6 and D21 (log 4, log 19): creating a memory, and with it a core, fails exactly when the size is 0 or
above `MAX_MEMORY_SIZE`, and then with `OutOfBounds`, whatever it carries. -/
def Obligations.ConstructionFailsExactlyOutsideCapacity : Prop :=
  ∀ maxSize size : Nat,
    (1 ≤ size ∧ size ≤ maxSize →
        ∃ m, memNew maxSize size = .ok m ∧ m.size = size ∧ (∀ a, m.byteAt a = 0x00#8)
          ∧ construct maxSize size = .ok (constructWith m))
      ∧ (¬(1 ≤ size ∧ size ≤ maxSize) →
        ∃ addr sz, memNew maxSize size = .error (.outOfBounds addr sz)
          ∧ construct maxSize size = .error (.outOfBounds addr sz))

/-- R62. Every memory's size is at least 1 and at most `MAX_MEMORY_SIZE`: a new memory's is, and no operation of the
host, no cycle and no load changes it, whether it succeeds or ends in an error. -/
def Obligations.MemorySizeStaysWithinCapacity : Prop :=
  ∀ maxSize : Nat,
    (∀ (size : Nat) (m : Memory), memNew maxSize size = .ok m → 1 ≤ m.size ∧ m.size ≤ maxSize)
      ∧ (∀ (size : Nat) (s : State), construct maxSize size = .ok s → s.Fits maxSize)
      ∧ (∀ (o : HostOp) (s : State), s.Fits maxSize → (hostOp o s).2.Fits maxSize)
      ∧ (∀ s t : State, s.Fits maxSize → step s = .next t → t.Fits maxSize)
      ∧ (∀ (s : State) (f : Fault), s.Fits maxSize → step s = .fault f → f.after.Fits maxSize)
      ∧ (∀ (parseOk : List Byte → Bool) (file : Option (List Byte)) (m m' : Memory) (e : Word),
          1 ≤ m.size ∧ m.size ≤ maxSize → loadElf parseOk file m = .loaded e m' →
            1 ≤ m'.size ∧ m'.size ≤ maxSize)
      ∧ ∀ (parseOk : List Byte → Bool) (file : Option (List Byte)) (m m' : Memory) (e : ElfError),
          1 ≤ m.size ∧ m.size ≤ maxSize → loadElf parseOk file m = .failed e m' →
            1 ≤ m'.size ∧ m'.size ≤ maxSize

/-! ## Memory -/

/-- spec/20_memory.md section 2 (R63) with C5 and D20 (log 18): the check of a 4-byte access, read, write or fetch alike, in
the order the spec chose and without wrap; its last test can fail only at the last aligned address of a memory whose size is
no multiple of 4, which R63 marks as derived. -/
def Obligations.WordAccessIsCheckedInOrder : Prop :=
  ∀ (m : Memory) (a v : Word),
    (m.size ≤ a.toNat →
        m.loadWord a = .error (.outOfBounds a m.size) ∧ m.storeWord a v = .error (.outOfBounds a m.size)
          ∧ m.fetch a = .error (.outOfBounds a m.size))
      ∧ (a.toNat < m.size → a.toNat % 4 ≠ 0 →
        m.loadWord a = .error (.unalignedAccess a 4) ∧ m.storeWord a v = .error (.unalignedAccess a 4)
          ∧ m.fetch a = .error (.unalignedAccess a 4))
      ∧ (a.toNat < m.size → a.toNat % 4 = 0 → m.size < a.toNat + 4 →
        m.loadWord a = .error (.outOfBounds a m.size) ∧ m.storeWord a v = .error (.outOfBounds a m.size)
          ∧ m.fetch a = .error (.outOfBounds a m.size)
          ∧ m.size % 4 ≠ 0 ∧ ∀ b : Nat, b % 4 = 0 → b < m.size → b ≤ a.toNat)
      ∧ (a.toNat + 4 ≤ m.size → a.toNat % 4 = 0 →
        (∃ w, m.loadWord a = .ok w) ∧ (∃ m', m.storeWord a v = .ok m') ∧ ∃ w, m.fetch a = .ok w)

/-- R64. `load_word`: the word whose least-significant byte is at the lowest address; memory, like all of the state, is
unchanged whether it succeeds or not. -/
def Obligations.LoadWordReadsLittleEndian : Prop :=
  ∀ (s : State) (a : Word),
    (Admitted s.mem a →
        hostOp (.loadWord a) s
          = (.word (s.mem.byteAt (a.toNat + 3) ++ s.mem.byteAt (a.toNat + 2) ++ s.mem.byteAt (a.toNat + 1)
              ++ s.mem.byteAt a.toNat), s))
      ∧ (¬Admitted s.mem a → ∃ e, s.mem.wordError a = some e ∧ hostOp (.loadWord a) s = (.memoryError e, s))

/-- R65. `store_word`: four bytes, the least-significant at the lowest address, and no other byte; a store that raises
changes nothing. -/
def Obligations.StoreWordWritesFourBytes : Prop :=
  ∀ (s : State) (a v : Word), s.mem.wf →
    (Admitted s.mem a →
        ∃ t, hostOp (.storeWord a v) s = (.unit, t)
          ∧ t.mem.byteAt a.toNat = v.extractLsb' 0 8 ∧ t.mem.byteAt (a.toNat + 1) = v.extractLsb' 8 8
          ∧ t.mem.byteAt (a.toNat + 2) = v.extractLsb' 16 8 ∧ t.mem.byteAt (a.toNat + 3) = v.extractLsb' 24 8
          ∧ (∀ k, k < a.toNat ∨ a.toNat + 4 ≤ k → t.mem.byteAt k = s.mem.byteAt k)
          ∧ t.mem.size = s.mem.size ∧ RegistersSame s t ∧ t.pc = s.pc)
      ∧ (¬Admitted s.mem a → ∃ e, s.mem.wordError a = some e ∧ hostOp (.storeWord a v) s = (.memoryError e, s))

/-- R66 and R67. The byte accessors need only that the address exists; a store changes only that byte, and one that
raises changes nothing. -/
def Obligations.ByteAccessorsCheckBoundsOnly : Prop :=
  ∀ (s : State) (a : Word) (b : Byte), s.mem.wf →
    (s.mem.size ≤ a.toNat →
        hostOp (.loadByte a) s = (.memoryError (.outOfBounds a s.mem.size), s)
          ∧ hostOp (.storeByte a b) s = (.memoryError (.outOfBounds a s.mem.size), s))
      ∧ (a.toNat < s.mem.size →
        hostOp (.loadByte a) s = (.byte (s.mem.byteAt a.toNat), s)
          ∧ ∃ t, hostOp (.storeByte a b) s = (.unit, t) ∧ t.mem.byteAt a.toNat = b
              ∧ (∀ k, k ≠ a.toNat → t.mem.byteAt k = s.mem.byteAt k)
              ∧ t.mem.size = s.mem.size ∧ RegistersSame s t ∧ t.pc = s.pc)

/-- spec/20_memory.md section 3 (R71, derived there). A word and its four bytes are the same storage: each byte of a stored
word is read by itself, and a stored byte replaces its eight bits of the word and no others. -/
def Obligations.WordsAndBytesShareStorage : Prop :=
  ∀ (m : Memory) (a v : Word) (k : Nat) (b : Byte), m.wf → Admitted m a → k < 4 →
    (∃ m', m.storeWord a v = .ok m' ∧ m'.loadWord a = .ok v
        ∧ m'.loadByte (a + BitVec.ofNat 32 k) = .ok (v.extractLsb' (8 * k) 8))
      ∧ ∃ m' w w', m.storeByte (a + BitVec.ofNat 32 k) b = .ok m' ∧ m.loadWord a = .ok w ∧ m'.loadWord a = .ok w'
          ∧ ∀ i, i < 32 → w'.getLsbD i = if 8 * k ≤ i ∧ i < 8 * k + 8 then b.getLsbD (i - 8 * k) else w.getLsbD i

/-- Every memory the model makes is in its canonical form when it was before: a new one, one after a store of a word or
a byte, and one a load leaves, whether the load succeeds or fails. -/
def Obligations.MemoryOperationsKeepTheCanonicalForm : Prop :=
  (∀ (maxSize size : Nat) (m : Memory), maxSize ≤ 2 ^ 32 → memNew maxSize size = .ok m → m.wf)
    ∧ (∀ (m m' : Memory) (a v : Word), m.wf → m.storeWord a v = .ok m' → m'.wf)
    ∧ (∀ (m m' : Memory) (a : Word) (b : Byte), m.wf → m.storeByte a b = .ok m' → m'.wf)
    ∧ (∀ (parseOk : List Byte → Bool) (file : Option (List Byte)) (m m' : Memory) (e : Word), m.wf →
        loadElf parseOk file m = .loaded e m' → m'.wf)
    ∧ ∀ (parseOk : List Byte → Bool) (file : Option (List Byte)) (m m' : Memory) (e : ElfError), m.wf →
        loadElf parseOk file m = .failed e m' → m'.wf

/-- Two memories of one size in canonical form whose bytes read alike are the same data. -/
def Obligations.CanonicalMemoriesWithEqualBytesAreEqual : Prop :=
  ∀ m₁ m₂ : Memory, m₁.wf → m₂.wf → m₁.size = m₂.size → (∀ a, a < m₁.size → m₁.byteAt a = m₂.byteAt a) → m₁ = m₂

/-! ## Decoding -/

/-- R103, R104 and R106, bit by bit: which bit of the word each bit of an I-type, S-type and U-type immediate is, and the
range of the signed ones. -/
def Obligations.ImmediatesTakeTheStatedBits : Prop :=
  ∀ (w : Word) (i : Nat), i < 32 →
    (immI w).getLsbD i = (if i < 12 then w.getLsbD (20 + i) else w.getLsbD 31)
      ∧ (immS w).getLsbD i
          = (if i < 5 then w.getLsbD (7 + i) else if i < 12 then w.getLsbD (20 + i) else w.getLsbD 31)
      ∧ (immU w).getLsbD i = (if i < 12 then false else w.getLsbD i)
      ∧ -2048 ≤ (immI w).toInt ∧ (immI w).toInt ≤ 2047 ∧ -2048 ≤ (immS w).toInt ∧ (immS w).toInt ≤ 2047

/-- spec/30_encoding.md section 2 (R105, R107) with D10 (log 8): the bits of the B-type and J-type immediates, which are
even. -/
def Obligations.BranchAndJumpImmediatesTakeTheChosenBits : Prop :=
  ∀ (w : Word) (i : Nat), i < 32 →
    (immB w).getLsbD i
        = (if i = 0 then false else if i < 5 then w.getLsbD (7 + i) else if i < 11 then w.getLsbD (20 + i)
            else if i = 11 then w.getLsbD 7 else w.getLsbD 31)
      ∧ (immJ w).getLsbD i
        = (if i = 0 then false else if i < 11 then w.getLsbD (20 + i) else if i = 11 then w.getLsbD 20
            else if i < 20 then w.getLsbD i else w.getLsbD 31)
      ∧ -4096 ≤ (immB w).toInt ∧ (immB w).toInt ≤ 4094 ∧ (immB w).toInt % 2 = 0
      ∧ -1048576 ≤ (immJ w).toInt ∧ (immJ w).toInt ≤ 1048574 ∧ (immJ w).toInt % 2 = 0

/-- spec/30_encoding.md section 3 (R110 to R122) with D9, D10, D12 to D16 (log 7 to log 14): what each family of words decodes
to, each operand from its field. -/
def Obligations.DecoderReadsTheFieldsOfEveryFamily : Prop :=
  ∀ w : Word,
    (opcodeOf w = 0x37#7 → decode w = .ok (.lui (rdOf w) (immU w)))
      ∧ (opcodeOf w = 0x17#7 → decode w = .ok (.auipc (rdOf w) (immU w)))
      ∧ (opcodeOf w = 0x6F#7 → decode w = .ok (.jal (rdOf w) (immJ w)))
      ∧ (opcodeOf w = 0x67#7 → decode w = .ok (.jalr (rdOf w) (rs1Of w) (immI w)))
      ∧ (opcodeOf w = 0x03#7 → decode w = .ok (.load (rdOf w) (rs1Of w) (immI w)))
      ∧ (opcodeOf w = 0x13#7 → funct3Of w = 1#3 ∨ funct3Of w = 5#3 →
          decode w = .ok (.shiftImm (rdOf w) (rs1Of w) (shamtOf w)
            (decide (funct3Of w = 5#3 ∧ funct7Of w = 0x20#7))))
      ∧ (opcodeOf w = 0x13#7 → funct3Of w ≠ 1#3 → funct3Of w ≠ 5#3 →
          decode w = .ok (.opImm (rdOf w) (rs1Of w) (immI w)))
      ∧ (opcodeOf w = 0x23#7 → decode w = .ok (.store (rs1Of w) (rs2Of w) (immS w)))
      ∧ (opcodeOf w = 0x63#7 → decode w = .ok (.branch (rs1Of w) (rs2Of w) (immB w)))
      ∧ (opcodeOf w = 0x33#7 ∨ opcodeOf w = 0x3B#7 →
          (funct7Of w ≠ 0x01#7 → decode w = .ok (.op (rdOf w) (rs1Of w) (rs2Of w) (funct7Of w)))
            ∧ (funct7Of w = 0x01#7 →
                (funct3Of w = 0#3 → decode w = .ok (.mul (rdOf w) (rs1Of w) (rs2Of w)))
                  ∧ (funct3Of w = 4#3 → decode w = .ok (.div (rdOf w) (rs1Of w) (rs2Of w)))
                  ∧ (funct3Of w = 5#3 → decode w = .ok (.divu (rdOf w) (rs1Of w) (rs2Of w)))
                  ∧ (funct3Of w = 6#3 → decode w = .ok (.rem (rdOf w) (rs1Of w) (rs2Of w)))
                  ∧ (funct3Of w = 7#3 → decode w = .ok (.remu (rdOf w) (rs1Of w) (rs2Of w)))))
      ∧ (opcodeOf w = 0x73#7 → funct3Of w = 0#3 →
          (imm12Of w = 0#12 → decode w = .ok .ecall) ∧ (imm12Of w = 1#12 → decode w = .ok .ebreak))
      ∧ ∀ i, i < 5 →
          (rdOf w).getLsbD i = w.getLsbD (7 + i) ∧ (rs1Of w).getLsbD i = w.getLsbD (15 + i)
            ∧ (rs2Of w).getLsbD i = w.getLsbD (20 + i) ∧ (shamtOf w).getLsbD i = w.getLsbD (20 + i)

/-- What the decoder produces is well-formed and one of the seventeen variants; its two errors are the table's two
decode-error classes, well-formed too. -/
def Obligations.DecoderProducesWellFormedInstructions : Prop :=
  ∀ w : Word,
    (∀ i, decode w = .ok i → i.wellFormed = true ∧ i.isVariant = true)
      ∧ ∀ e, decode w = .error e → e.row.wellFormed = true ∧ e.row.isVariant = false

/-- spec/30_encoding.md section 4 (R124) with D14 (log 10): a word raises a decode error exactly when (a), (b) or (c), and
which of the two errors it raises, with what. -/
def Obligations.DecodeErrorsAreExactlyTheIllegalWords : Prop :=
  ∀ w : Word,
    (decode w = .error (.unknownOpcode (opcodeOf w))
        ↔ opcodeOf w ∉ [0x03#7, 0x13#7, 0x17#7, 0x23#7, 0x33#7, 0x37#7, 0x3B#7, 0x63#7, 0x67#7, 0x6F#7, 0x73#7])
      ∧ (decode w = .error (.invalidInstruction w)
        ↔ (opcodeOf w = 0x73#7 ∧ ¬(funct3Of w = 0#3 ∧ (imm12Of w = 0#12 ∨ imm12Of w = 1#12)))
          ∨ ((opcodeOf w = 0x33#7 ∨ opcodeOf w = 0x3B#7) ∧ funct7Of w = 0x01#7
            ∧ (funct3Of w = 1#3 ∨ funct3Of w = 2#3 ∨ funct3Of w = 3#3)))
      ∧ ∀ e, decode w = .error e → e = .unknownOpcode (opcodeOf w) ∨ e = .invalidInstruction w

/-- spec/30_encoding.md section 4 (R127, derived there) with D12, D13 and D16 (log 11, log 12, log 14): words that agree on the
bits the decoder looks at decode alike, whatever the bits it ignores; for ECALL and EBREAK that is rd and rs1. -/
def Obligations.DecoderIgnoresTheListedBits : Prop :=
  (∀ w w' : Word, opcodeOf w = 0x73#7 → opcodeOf w' = 0x73#7 → funct3Of w = 0#3 → funct3Of w' = 0#3 →
      imm12Of w = imm12Of w' → imm12Of w = 0#12 ∨ imm12Of w = 1#12 → decode w = decode w')
  ∧ ∀ w w' : Word, rdOf w = rdOf w' → rs1Of w = rs1Of w' →
    (opcodeOf w = opcodeOf w' → opcodeOf w = 0x67#7 ∨ opcodeOf w = 0x03#7 → imm12Of w = imm12Of w' →
        decode w = decode w')
      ∧ (opcodeOf w = opcodeOf w' → opcodeOf w = 0x23#7 ∨ opcodeOf w = 0x63#7 → rs2Of w = rs2Of w' →
        funct7Of w = funct7Of w' → decode w = decode w')
      ∧ (opcodeOf w = 0x13#7 → opcodeOf w' = 0x13#7 → funct3Of w = 1#3 → funct3Of w' = 1#3 → rs2Of w = rs2Of w' →
        decode w = decode w')
      ∧ (opcodeOf w = 0x13#7 → opcodeOf w' = 0x13#7 → funct3Of w = 5#3 → funct3Of w' = 5#3 → rs2Of w = rs2Of w' →
        (funct7Of w = 0x20#7 ↔ funct7Of w' = 0x20#7) → decode w = decode w')
      ∧ (opcodeOf w = 0x13#7 → opcodeOf w' = 0x13#7 → funct3Of w ≠ 1#3 → funct3Of w ≠ 5#3 → funct3Of w' ≠ 1#3 →
        funct3Of w' ≠ 5#3 → imm12Of w = imm12Of w' → decode w = decode w')
      ∧ (opcodeOf w = 0x33#7 ∨ opcodeOf w = 0x3B#7 → opcodeOf w' = 0x33#7 ∨ opcodeOf w' = 0x3B#7 →
        rs2Of w = rs2Of w' → funct7Of w = funct7Of w' → funct7Of w ≠ 0x01#7 → decode w = decode w')
      ∧ (opcodeOf w = 0x33#7 ∨ opcodeOf w = 0x3B#7 → opcodeOf w' = 0x33#7 ∨ opcodeOf w' = 0x3B#7 →
        rs2Of w = rs2Of w' → funct7Of w = 0x01#7 → funct7Of w' = 0x01#7 → funct3Of w = funct3Of w' →
        funct3Of w = 0#3 ∨ 4 ≤ (funct3Of w).toNat → decode w = decode w')

/-- Decode and encode agree: every well-formed instruction, and every decode-error class, decodes from the word it is
encoded as, with every operand at every value its encoding admits. -/
def Obligations.EncodedInstructionDecodesToItself : Prop :=
  ∀ i : Instr, i.wellFormed = true →
    decodeRow (encode i) = i ∧ (i.isVariant = true → decode (encode i) = .ok i)

/-- Words of spec/95_test_vectors.md (V-DEC), one or more per family, decode to the instructions they are written for. -/
def Obligations.SpecWordsDecodeAsWritten : Prop :=
  decode 0x123452B7#32 = .ok (.lui 5#5 0x12345000#32)
    ∧ decode 0xFFFFF197#32 = .ok (.auipc 3#5 0xFFFFF000#32)
    ∧ decode 0xFF1FF06F#32 = .ok (.jal 0#5 (BitVec.ofInt 32 (-16)))
    ∧ decode 0xFFF2F0E7#32 = .ok (.jalr 1#5 5#5 (BitVec.ofInt 32 (-1)))
    ∧ decode 0x00428483#32 = .ok (.load 9#5 5#5 4#32)
    ∧ decode 0x40409193#32 = .ok (.shiftImm 3#5 1#5 4#5 false)
    ∧ decode 0x4040D193#32 = .ok (.shiftImm 3#5 1#5 4#5 true)
    ∧ decode 0x00500113#32 = .ok (.opImm 2#5 0#5 5#32)
    ∧ decode 0xFE62AFA3#32 = .ok (.store 5#5 6#5 (BitVec.ofInt 32 (-1)))
    ∧ decode 0xFE20CFE3#32 = .ok (.branch 1#5 2#5 (BitVec.ofInt 32 (-2)))
    ∧ decode 0x0A2081B3#32 = .ok (.op 3#5 1#5 2#5 0x05#7)
    ∧ decode 0x0220C1BB#32 = .ok (.div 3#5 1#5 2#5)
    ∧ decode 0x00128073#32 = .ok .ebreak
    ∧ decode 0x022091B3#32 = .error (.invalidInstruction 0x022091B3#32)
    ∧ decode 0x0FF0000F#32 = .error (.unknownOpcode 0x0F#7)

/-! ## Instructions: result, frame and completion -/

/-- R160. LUI, with every word of opcode 0x37: `x[rd] <- imm`, nothing else. (Where rd stands in the word is log 7; this
statement does not say it, `DecoderReadsTheFieldsOfEveryFamily` does.) -/
def Obligations.LuiWritesItsImmediate : Prop :=
  (∀ w, opcodeOf w = 0x37#7 → ∃ rd, decode w = .ok (.lui rd (immU w)))
    ∧ (decode 0x123452B7#32 = .ok (.lui 5#5 0x12345000#32))
    ∧ ∀ (rd : RegIdx) (imm : Word) (s : State), ∃ t, exec (.lui rd imm) s = .next t ∧ WritesOnly rd imm s t

/-- R161. AUIPC, with every word of opcode 0x17: `x[rd] <- P + imm`, P the pc that execute starts with, in a cycle the
address of the next instruction. -/
def Obligations.AuipcAddsItsImmediateToThePc : Prop :=
  (∀ w, opcodeOf w = 0x17#7 → ∃ rd, decode w = .ok (.auipc rd (immU w)))
    ∧ (decode 0x00001497#32 = .ok (.auipc 9#5 0x1000#32))
    ∧ (∀ (rd : RegIdx) (imm : Word) (s : State),
        ∃ t, exec (.auipc rd imm) s = .next t ∧ WritesOnly rd (s.pc + imm) s t)
    ∧ ∀ (w : Word) (rd : RegIdx) (imm : Word) (s : State), s.fetch = .ok w → decode w = .ok (.auipc rd imm) →
        ∃ t, step s = .next t ∧ Holds t rd (s.pc + 4#32 + imm) ∧ t.pc = s.pc + 4#32

/-- spec/42_jumps.md (R170) with D17 (log 15): JAL writes the link P + 4 and goes to P + imm; in a cycle A + 8 and
A + 4 + imm. -/
def Obligations.JalLinksAndJumps : Prop :=
  (∀ (rd : RegIdx) (imm : Word) (s : State),
      ∃ t, exec (.jal rd imm) s = .next t ∧ Holds t rd (s.pc + 4#32) ∧ t.pc = s.pc + imm
        ∧ RegistersSameBut rd s t ∧ MemorySame s t ∧ t.phase = .running)
    ∧ ∀ (w : Word) (s : State), s.fetch = .ok w → opcodeOf w = 0x6F#7 →
        ∃ t, step s = .next t ∧ Holds t (rdOf w) (s.pc + 8#32) ∧ t.pc = s.pc + 4#32 + immJ w

/-- spec/42_jumps.md (R171) with D17 and D18 (log 15, log 16): JALR writes the link P + 4 and goes to x[rs1] + imm with
bit 0 cleared and bit 1 kept, x[rs1] as it was before the link was written, `rd = rs1` included. -/
def Obligations.JalrLinksAndJumps : Prop :=
  ∀ (rd rs1 : RegIdx) (imm : Word) (s : State),
    ∃ t, exec (.jalr rd rs1 imm) s = .next t ∧ Holds t rd (s.pc + 4#32)
      ∧ (∀ k, t.pc.getLsbD k = if k = 0 then false else (s.readReg rs1 + imm).getLsbD k)
      ∧ RegistersSameBut rd s t ∧ MemorySame s t ∧ t.phase = .running

/-- R180. OP_IMM, with every word of opcode 0x13 whose funct3 is not 1 or 5: `x[rd] <- x[rs1] + imm`, wrapping. -/
def Obligations.OpImmAddsItsImmediate : Prop :=
  (∀ w, opcodeOf w = 0x13#7 → funct3Of w ≠ 1#3 → funct3Of w ≠ 5#3 →
      ∃ rd rs1, decode w = .ok (.opImm rd rs1 (immI w)))
    ∧ (decode 0x00500113#32 = .ok (.opImm 2#5 0#5 5#32))
    ∧ (decode 0xFFF0C193#32 = .ok (.opImm 3#5 1#5 (BitVec.ofInt 32 (-1))))
    ∧ ∀ (rd rs1 : RegIdx) (imm : Word) (s : State),
        ∃ t, exec (.opImm rd rs1 imm) s = .next t
          ∧ WritesOnly rd (BitVec.ofNat 32 ((s.readReg rs1).toNat + imm.toNat)) s t

/-- spec/43_immediate_alu.md (R181) with D12 (log 11): SHIFT_IMM, bit by bit: with the flag an arithmetic right shift,
without it a left shift, the SRLI encoding included. -/
def Obligations.ShiftImmShiftsRightOnlyWhenArithmetic : Prop :=
  (∀ (rd rs1 : RegIdx) (shamt : Shamt) (arithmetic : Bool) (s : State),
      ∃ t v, exec (.shiftImm rd rs1 shamt arithmetic) s = .next t ∧ WritesOnly rd v s t
        ∧ ∀ i, i < 32 → v.getLsbD i
            = if arithmetic = true then
                (s.readReg rs1).getLsbD (if i + shamt.toNat < 32 then i + shamt.toNat else 31)
              else if i < shamt.toNat then false else (s.readReg rs1).getLsbD (i - shamt.toNat))
    ∧ ∀ w, opcodeOf w = 0x13#7 → funct3Of w = 1#3 ∨ funct3Of w = 5#3 →
        ∃ arithmetic, decode w = .ok (.shiftImm (rdOf w) (rs1Of w) (shamtOf w) arithmetic)
          ∧ (arithmetic = true ↔ funct3Of w = 5#3 ∧ funct7Of w = 0x20#7)

/-- spec/44_load_store.md (R190, R191): LOAD of an admitted address writes the little-endian word there to x[rd] and
changes nothing else. -/
def Obligations.LoadWritesTheWordAtItsAddress : Prop :=
  ∀ (rd rs1 : RegIdx) (imm : Word) (s : State), Admitted s.mem (s.readReg rs1 + imm) →
    ∃ t, exec (.load rd rs1 imm) s = .next t
      ∧ WritesOnly rd
          (s.mem.byteAt ((s.readReg rs1 + imm).toNat + 3) ++ s.mem.byteAt ((s.readReg rs1 + imm).toNat + 2)
            ++ s.mem.byteAt ((s.readReg rs1 + imm).toNat + 1) ++ s.mem.byteAt (s.readReg rs1 + imm).toNat) s t

/-- spec/44_load_store.md (R190, R192): STORE to an admitted address writes the four bytes of x[rs2] there,
least-significant first, and changes no other byte, no register and not the pc. -/
def Obligations.StoreWritesTheWordAtItsAddress : Prop :=
  ∀ (rs1 rs2 : RegIdx) (imm : Word) (s : State), s.mem.wf → Admitted s.mem (s.readReg rs1 + imm) →
    ∃ t, exec (.store rs1 rs2 imm) s = .next t
      ∧ (∀ k, k < 4 → t.mem.byteAt ((s.readReg rs1 + imm).toNat + k) = (s.readReg rs2).extractLsb' (8 * k) 8)
      ∧ (∀ a, a < (s.readReg rs1 + imm).toNat ∨ (s.readReg rs1 + imm).toNat + 4 ≤ a →
          t.mem.byteAt a = s.mem.byteAt a)
      ∧ t.mem.size = s.mem.size ∧ RegistersSame s t ∧ t.pc = s.pc ∧ t.phase = .running

/-- spec/44_load_store.md (R191, R192): LOAD and STORE of an address that is not admitted raise the error of R63 and
leave the whole state as it was, `rd = 0` included. -/
def Obligations.LoadAndStoreRaiseOnABadAddress : Prop :=
  ∀ (r rs1 : RegIdx) (imm : Word) (s : State),
    (s.mem.size ≤ (s.readReg rs1 + imm).toNat
        ∨ (s.readReg rs1 + imm).toNat % 4 = 0 ∧ s.mem.size < (s.readReg rs1 + imm).toNat + 4 →
      exec (.load r rs1 imm) s = .fault (.memory (.outOfBounds (s.readReg rs1 + imm) s.mem.size) s)
        ∧ exec (.store rs1 r imm) s = .fault (.memory (.outOfBounds (s.readReg rs1 + imm) s.mem.size) s))
    ∧ ((s.readReg rs1 + imm).toNat < s.mem.size → (s.readReg rs1 + imm).toNat % 4 ≠ 0 →
      exec (.load r rs1 imm) s = .fault (.memory (.unalignedAccess (s.readReg rs1 + imm) 4) s)
        ∧ exec (.store rs1 r imm) s = .fault (.memory (.unalignedAccess (s.readReg rs1 + imm) 4) s))

/-- R200. BRANCH, with every word of opcode 0x63 whatever its funct3: to P + imm when the two registers are equal,
otherwise the pc stays; no register and no byte changes, BRANCH raises nothing, and a target that cannot be fetched raises
at the next step. (Which bits of the word immB is made of is log 8; `BranchAndJumpImmediatesTakeTheChosenBits` says it.) -/
def Obligations.BranchRedirectsWhenEqual : Prop :=
  (∀ w, opcodeOf w = 0x63#7 → ∃ rs1 rs2, decode w = .ok (.branch rs1 rs2 (immB w))
      ∧ -4096 ≤ (immB w).toInt ∧ (immB w).toInt ≤ 4094 ∧ (immB w).toInt % 2 = 0)
    ∧ (decode 0x00208463#32 = .ok (.branch 1#5 2#5 8#32)) ∧ (decode 0x00209463#32 = .ok (.branch 1#5 2#5 8#32))
    ∧ (∀ (rs1 rs2 : RegIdx) (imm : Word) (s : State),
        ∃ t, exec (.branch rs1 rs2 imm) s = .next t
          ∧ (s.readReg rs1 = s.readReg rs2 → t.pc = s.pc + imm) ∧ (s.readReg rs1 ≠ s.readReg rs2 → t.pc = s.pc)
          ∧ RegistersSame s t ∧ MemorySame s t ∧ t.phase = .running
          ∧ (t.pc.toNat % 4 ≠ 0 ∨ t.mem.size ≤ t.pc.toNat → ∃ e, step t = .fault (.memory e t)))
    ∧ ∀ (w : Word) (rs1 rs2 : RegIdx) (imm : Word) (s : State), s.fetch = .ok w →
        decode w = .ok (.branch rs1 rs2 imm) →
        ∃ t, step s = .next t
          ∧ t.pc = if s.readReg rs1 = s.readReg rs2 then s.pc + 4#32 + imm else s.pc + 4#32

/-- spec/46_register_alu.md section 2 (R211) with C2 and D15 (log 13) and, for the pc after the error, D23 (log 20). OP, with
every word of opcode 0x33 or 0x3B whose funct7 is not 0x01: the sum for funct7 0x00, the difference for 0x20; any other raises
at execute, in a cycle with the pc past the word, and writes nothing. -/
def Obligations.OpAddsSubtractsOrRaises : Prop :=
  (∀ w, opcodeOf w = 0x33#7 ∨ opcodeOf w = 0x3B#7 → funct7Of w ≠ 0x01#7 →
      ∃ rd rs1 rs2, decode w = .ok (.op rd rs1 rs2 (funct7Of w)))
    ∧ (decode 0x002081B3#32 = .ok (.op 3#5 1#5 2#5 0x00#7)) ∧ (decode 0x40208233#32 = .ok (.op 4#5 1#5 2#5 0x20#7))
    ∧ (∀ (rd rs1 rs2 : RegIdx) (s : State),
        (∃ t, exec (.op rd rs1 rs2 0x00#7) s = .next t
            ∧ WritesOnly rd (BitVec.ofNat 32 ((s.readReg rs1).toNat + (s.readReg rs2).toNat)) s t)
          ∧ ∃ t, exec (.op rd rs1 rs2 0x20#7) s = .next t
            ∧ WritesOnly rd (BitVec.ofInt 32 ((s.readReg rs1).toNat - (s.readReg rs2).toNat : Int)) s t)
    ∧ (∀ (rd rs1 rs2 : RegIdx) (funct7 : Funct7) (s : State), funct7 ≠ 0x00#7 → funct7 ≠ 0x20#7 →
        exec (.op rd rs1 rs2 funct7) s = .fault (.invalidOperation funct7 s))
    ∧ ∀ (w : Word) (s : State), s.fetch = .ok w → opcodeOf w = 0x33#7 ∨ opcodeOf w = 0x3B#7 →
        funct7Of w ≠ 0x00#7 → funct7Of w ≠ 0x01#7 → funct7Of w ≠ 0x20#7 →
        step s = .fault (.invalidOperation (funct7Of w) s.advance)

/-- spec/46_register_alu.md section 2 (R212): MUL writes the low 32 bits of the product, the same for operands read as
signed and as unsigned. -/
def Obligations.MulWritesTheLowWordOfTheProduct : Prop :=
  ∀ (rd rs1 rs2 : RegIdx) (s : State),
    ∃ t v, exec (.mul rd rs1 rs2) s = .next t ∧ WritesOnly rd v s t
      ∧ v = BitVec.ofNat 32 ((s.readReg rs1).toNat * (s.readReg rs2).toNat)
      ∧ v = BitVec.ofInt 32 ((s.readReg rs1).toInt * (s.readReg rs2).toInt)

/-- spec/46_register_alu.md section 2 (R213) with D19 (log 17): DIV writes -1 for a zero divisor, -2^31 in the overflow
case, otherwise the signed quotient rounded toward zero. -/
def Obligations.DivWritesTheSignedQuotient : Prop :=
  ∀ (rd rs1 rs2 : RegIdx) (s : State),
    ∃ t v, exec (.div rd rs1 rs2) s = .next t ∧ WritesOnly rd v s t
      ∧ (s.readReg rs2 = 0#32 → v = 0xFFFFFFFF#32)
      ∧ (s.readReg rs1 = 0x80000000#32 → s.readReg rs2 = 0xFFFFFFFF#32 → v = 0x80000000#32)
      ∧ (s.readReg rs2 ≠ 0#32 → ¬(s.readReg rs1 = 0x80000000#32 ∧ s.readReg rs2 = 0xFFFFFFFF#32) →
          v.toInt = Int.tdiv (s.readReg rs1).toInt (s.readReg rs2).toInt)

/-- spec/46_register_alu.md section 2 (R214): DIVU writes all ones for a zero divisor, otherwise the unsigned quotient. -/
def Obligations.DivuWritesTheUnsignedQuotient : Prop :=
  ∀ (rd rs1 rs2 : RegIdx) (s : State),
    ∃ t v, exec (.divu rd rs1 rs2) s = .next t ∧ WritesOnly rd v s t
      ∧ (s.readReg rs2 = 0#32 → v = 0xFFFFFFFF#32)
      ∧ (s.readReg rs2 ≠ 0#32 → v.toNat = (s.readReg rs1).toNat / (s.readReg rs2).toNat)

/-- spec/46_register_alu.md section 2 (R215) with D19 (log 17): REM writes the dividend for a zero divisor, 0 in the
overflow case, otherwise the signed remainder of the quotient rounded toward zero. -/
def Obligations.RemWritesTheSignedRemainder : Prop :=
  ∀ (rd rs1 rs2 : RegIdx) (s : State),
    ∃ t v, exec (.rem rd rs1 rs2) s = .next t ∧ WritesOnly rd v s t
      ∧ (s.readReg rs2 = 0#32 → v = s.readReg rs1)
      ∧ (s.readReg rs1 = 0x80000000#32 → s.readReg rs2 = 0xFFFFFFFF#32 → v = 0#32)
      ∧ (s.readReg rs2 ≠ 0#32 → ¬(s.readReg rs1 = 0x80000000#32 ∧ s.readReg rs2 = 0xFFFFFFFF#32) →
          v.toInt = (s.readReg rs1).toInt
            - (s.readReg rs2).toInt * Int.tdiv (s.readReg rs1).toInt (s.readReg rs2).toInt)

/-- spec/46_register_alu.md section 2 (R216): REMU writes the dividend for a zero divisor, otherwise the unsigned
remainder. -/
def Obligations.RemuWritesTheUnsignedRemainder : Prop :=
  ∀ (rd rs1 rs2 : RegIdx) (s : State),
    ∃ t v, exec (.remu rd rs1 rs2) s = .next t ∧ WritesOnly rd v s t
      ∧ (s.readReg rs2 = 0#32 → v = s.readReg rs1)
      ∧ (s.readReg rs2 ≠ 0#32 → v.toNat = (s.readReg rs1).toNat % (s.readReg rs2).toNat)

/-- spec/46_register_alu.md section 1 (R210) with D19 (log 17): outside the zero-divisor and overflow cases the written
quotient and remainder of one operand pair satisfy a = b * q + r, the remainder smaller than the divisor and zero or of
the dividend's sign; and likewise unsigned. -/
def Obligations.QuotientAndRemainderAgree : Prop :=
  ∀ (rd rs1 rs2 : RegIdx) (s q r qu ru : State), rd ≠ 0#5 → s.readReg rs2 ≠ 0#32 →
    exec (.div rd rs1 rs2) s = .next q → exec (.rem rd rs1 rs2) s = .next r →
    exec (.divu rd rs1 rs2) s = .next qu → exec (.remu rd rs1 rs2) s = .next ru →
    (¬(s.readReg rs1 = 0x80000000#32 ∧ s.readReg rs2 = 0xFFFFFFFF#32) →
        (s.readReg rs1).toInt = (s.readReg rs2).toInt * (q.readReg rd).toInt + (r.readReg rd).toInt
          ∧ (r.readReg rd).toInt.natAbs < (s.readReg rs2).toInt.natAbs
          ∧ ((r.readReg rd).toInt = 0 ∨ (r.readReg rd).toInt.sign = (s.readReg rs1).toInt.sign))
      ∧ (s.readReg rs1).toNat = (s.readReg rs2).toNat * (qu.readReg rd).toNat + (ru.readReg rd).toNat
      ∧ (ru.readReg rd).toNat < (s.readReg rs2).toNat

/-- spec/47_system.md (R230, R231): ECALL and EBREAK complete and change no register, no byte and not the pc; only the
indicator of R47 shows that they ran. -/
def Obligations.EcallAndEbreakDoNothing : Prop :=
  ∀ s : State,
    (∃ t, exec .ecall s = .next t ∧ RegistersSame s t ∧ MemorySame s t ∧ t.pc = s.pc ∧ t.phase = .running)
      ∧ ∃ t, exec .ebreak s = .next t ∧ RegistersSame s t ∧ MemorySame s t ∧ t.pc = s.pc ∧ t.phase = .running

/-- spec/30_encoding.md section 3 and spec/60_exceptions.md section 1 (R123, R243, R244): the table's two decode-error classes are no
instructions; on every state they end in their decode error, which carries the word or the opcode, and change nothing. -/
def Obligations.DecodeErrorClassesRaiseTheirError : Prop :=
  ∀ s : State,
    (∀ w : Word, exec (.invalidInstruction w) s = .fault (.decode (.invalidInstruction w) s))
      ∧ ∀ opcode : BitVec 7, exec (.unknownOpcode opcode) s = .fault (.decode (.unknownOpcode opcode) s)

/-! ## The cycle -/

/-- spec/40_cycle.md section 2 (R152 to R154): when the four bytes at the pc hold an instruction, a cycle is its execute with
the pc moved past it; when they hold a word of a decode-error class, it is that class's error with the pc where it was. -/
def Obligations.CycleRunsTheInstructionAtThePc : Prop :=
  ∀ (s : State) (i : Instr), Admitted s.mem s.pc →
    decodeBytes [s.mem.byteAt s.pc.toNat, s.mem.byteAt (s.pc.toNat + 1), s.mem.byteAt (s.pc.toNat + 2),
        s.mem.byteAt (s.pc.toNat + 3)] = some (i, []) →
      (i.isVariant = true → step s = exec i s.advance)
        ∧ (i.isVariant = false → step s = exec i s)
        ∧ s.advance.pc = s.pc + 4#32 ∧ s.advance.mem = s.mem ∧ RegistersSame s s.advance

/-- R152. The host operation `step()`: it fetches at the pc, decodes, moves the pc by 4 with wrap-around and returns the
instruction; an error of the fetch or of the decoder comes back and nothing changes. -/
def Obligations.StepOperationFetchesDecodesAndAdvances : Prop :=
  ∀ s : State,
    (∀ e, s.mem.loadWord s.pc = .error e → hostOp .step s = (.cpuError (.memory e), s))
      ∧ (∀ w e, s.mem.loadWord s.pc = .ok w → decode w = .error e → hostOp .step s = (.cpuError (.decode e), s))
      ∧ ∀ w d, s.mem.loadWord s.pc = .ok w → decode w = .ok d →
          ∃ t, hostOp .step s = (.instr d, t) ∧ t.pc = s.pc + 4#32 ∧ RegistersSame s t ∧ MemorySame s t

/-- spec/40_cycle.md section 2 (R154) with D23 (log 20) of R156: one cycle is one `step()` followed, when it succeeds, by
`execute` of what it returned; an error of the first leaves the pc at A, an error of the second leaves it at P = A + 4. -/
def Obligations.CycleIsStepThenExecute : Prop :=
  ∀ s : State,
    (∀ e, (hostOp .step s).1 = .cpuError e →
        ∃ f, step s = .fault f ∧ f.error = e ∧ f.after.pc = s.pc)
      ∧ ∀ d, (hostOp .step s).1 = .instr d →
          (∀ t, hostOp (.execute d) (hostOp .step s).2 = (.unit, t) → step s = .next t)
            ∧ ∀ e t, hostOp (.execute d) (hostOp .step s).2 = (.cpuError e, t) →
                ∃ f, step s = .fault f ∧ f.error = e ∧ f.after = t ∧ t.pc = s.pc + 4#32

/-- R39. `step()` adds 4 with wrap-around; after that only JAL, JALR and a taken BRANCH write the pc. -/
def Obligations.OnlyJumpsAndTakenBranchesWriteThePc : Prop :=
  (∀ (s t : State) (d : Instr), fetchDecodeAdvance s = .ok (d, t) → t.pc = s.pc + 4#32)
    ∧ ∀ (i : Instr) (s t : State), exec i s = .next t → t.pc ≠ s.pc →
        (∃ rd imm, i = .jal rd imm) ∨ (∃ rd rs1 imm, i = .jalr rd rs1 imm)
          ∨ ∃ rs1 rs2 imm, i = .branch rs1 rs2 imm ∧ s.readReg rs1 = s.readReg rs2

/-- spec/10_state.md section 1 (R35): no execute changes a register but the one its instruction names as destination, and
no cycle one but the destination of the instruction it ran. -/
def Obligations.OnlyTheDestinationRegisterChanges : Prop :=
  (∀ (i : Instr) (s t : State) (r : RegIdx), exec i s = .next t → destination i ≠ some r →
      t.readReg r = s.readReg r)
    ∧ ∀ (s t : State) (r : RegIdx), step s = .next t → t.readReg r ≠ s.readReg r →
        ∃ w i, s.mem.loadWord s.pc = .ok w ∧ decode w = .ok i ∧ destination i = some r ∧ r ≠ 0#5

/-- spec/20_memory.md sections 4 and 5 (R73, R75) and spec/44_load_store.md (R190, R192): no execute but STORE's changes a byte
of memory, and a STORE that completes leaves every byte outside the four from its effective address x[rs1] + imm on, which
lie inside memory. -/
def Obligations.OnlyStoreChangesMemory : Prop :=
  (∀ (i : Instr) (s t : State), exec i s = .next t → storesWord i = false → MemorySame s t)
    ∧ ∀ (rs1 rs2 : RegIdx) (imm : Word) (s t : State), s.mem.wf → exec (.store rs1 rs2 imm) s = .next t →
        effectiveAddress rs1 imm s = s.readReg rs1 + imm
          ∧ (effectiveAddress rs1 imm s).toNat + 4 ≤ s.mem.size ∧ t.mem.size = s.mem.size
          ∧ ∀ a, a < (effectiveAddress rs1 imm s).toNat ∨ (effectiveAddress rs1 imm s).toNat + 4 ≤ a →
              t.mem.byteAt a = s.mem.byteAt a

/-- spec/40_cycle.md (R156) and spec/60_exceptions.md (R248) with D23 (log 20): an execute that raises leaves the state it
was given; a cycle that ends in an error leaves the state before it, or, when the execute raised, that state with the pc
past the instruction. -/
def Obligations.ErrorsChangeNothing : Prop :=
  (∀ (i : Instr) (s : State) (f : Fault), exec i s = .fault f → f.after = s)
    ∧ ∀ (s : State) (f : Fault), step s = .fault f →
        ((∃ e, fetchDecodeAdvance s = .error e) ∧ f.after = s)
          ∨ ∃ d, fetchDecodeAdvance s = .ok (d, s.advance) ∧ exec d s.advance = .fault f ∧ f.after = s.advance

/-- spec/60_exceptions.md section 1 (R244, derived there): of the seventeen variants only LOAD, STORE and OP raise at
execute, the first two a memory error and the last an invalid operation. -/
def Obligations.OnlyLoadStoreAndOpRaise : Prop :=
  ∀ (d : Instr) (s : State) (f : Fault), d.isVariant = true → exec d s = .fault f →
    ((∃ rd rs1 imm, d = .load rd rs1 imm) ∨ ∃ rs1 rs2 imm, d = .store rs1 rs2 imm) ∧ (∃ e, f.error = .memory e)
      ∨ ∃ rd rs1 rs2 funct7, d = .op rd rs1 rs2 funct7 ∧ f.error = .invalidOperation funct7

/-- spec/93_implementation_defined.md section 1: nothing is stuck; every instruction on every state, and every cycle, has an
outcome of the spec, a next state or a typed error. -/
def Obligations.NothingIsRefused : Prop :=
  (∀ (i : Instr) (s : State) (r : Refusal), exec i s ≠ .refused r)
    ∧ (∀ (s : State) (r : Refusal), step s ≠ .refused r)
    ∧ ∀ (o : HostOp) (s : State) (r : Refusal), (hostOp o s).1 ≠ .refused r

/-- spec/10_state.md (R40, R42) and spec/42_jumps.md (R172, derived there): no target is checked when it is written; a pc out of
range or misaligned shows at the next cycle, with the pc and everything else kept. -/
def Obligations.ABadPcRaisesAtTheNextFetch : Prop :=
  ∀ s : State,
    (s.mem.size ≤ s.pc.toNat → step s = .fault (.memory (.outOfBounds s.pc s.mem.size) s))
      ∧ (s.pc.toNat < s.mem.size → s.pc.toNat % 4 ≠ 0 → step s = .fault (.memory (.unalignedAccess s.pc 4) s))
      ∧ (s.pc.toNat < s.mem.size → s.pc.toNat % 4 = 0 → s.mem.size < s.pc.toNat + 4 →
          step s = .fault (.memory (.outOfBounds s.pc s.mem.size) s))

/-- spec/20_memory.md section 6 (R81, derived there): a stored word is what the next fetch of its address returns, with no
fence or delay; the instruction that stored it is not affected. -/
def Obligations.AStoreIsSeenByTheNextFetch : Prop :=
  ∀ (rs1 rs2 : RegIdx) (imm : Word) (s t : State), s.mem.wf → exec (.store rs1 rs2 imm) s = .next t →
    t.mem.fetch (s.readReg rs1 + imm) = .ok (s.readReg rs2)
      ∧ ∀ i, t.pc = s.readReg rs1 + imm → decode (s.readReg rs2) = .ok i → step t = exec i t.advance

/-- R47. The indicator is idle after construction, running after a successful step or execute, and nothing reads it:
with another value of it every operation of the host, step() and execute among them, gives the same reply and leaves the
same registers, pc and memory. -/
def Obligations.TheIndicatorIsOnlyWritten : Prop :=
  (∀ m : Memory, (constructWith m).phase = .idle)
    ∧ (∀ (i : Instr) (s t : State), exec i s = .next t → t.phase = .running)
    ∧ (∀ (s t : State) (d : Instr), fetchDecodeAdvance s = .ok (d, t) → t.phase = .running)
    ∧ (∀ (i : Instr) (s : State) (p : Phase),
        (∀ t, exec i s = .next t → exec i { s with phase := p } = .next t)
          ∧ ∀ f, exec i s = .fault f → ∃ g, exec i { s with phase := p } = .fault g ∧ g.error = f.error)
    ∧ (∀ (s t : State) (d : Instr) (p : Phase), fetchDecodeAdvance s = .ok (d, t) →
        fetchDecodeAdvance { s with phase := p } = .ok (d, t))
    ∧ ∀ (o : HostOp) (s : State) (p : Phase),
        (hostOp o { s with phase := p }).1 = (hostOp o s).1
          ∧ (hostOp o { s with phase := p }).2.regs = (hostOp o s).2.regs
          ∧ (hostOp o { s with phase := p }).2.pc = (hostOp o s).2.pc
          ∧ (hostOp o { s with phase := p }).2.mem = (hostOp o s).2.mem

/-- spec/10_state.md section 1 (R35), as what an instruction cannot learn: a register it neither reads nor writes does not
matter to it; with another value there, it ends the same way, and that register keeps the other value. -/
def Obligations.UnnamedRegistersDoNotMatter : Prop :=
  ∀ (i : Instr) (s : State) (r : RegIdx) (v : Word), destination i ≠ some r → r ∉ sources i →
    (∀ t, exec i s = .next t → exec i (s.writeReg r v) = .next (t.writeReg r v))
      ∧ ∀ f, exec i s = .fault f →
          ∃ g, exec i (s.writeReg r v) = .fault g ∧ g.error = f.error ∧ g.after = f.after.writeReg r v

/-! ## Invariants -/

/-- The core right after construction meets the invariant (its values are D4 to D6 and log 5). -/
def Obligations.ResetMeetsTheInvariant : Prop := State.reset.Inv

/-- From every state that meets the invariant, a cycle leads to one that meets it, and so does a cycle that ends in an
error: memory in its canonical form and within bounds, slot 0 of the register file zero. -/
def Obligations.EveryCycleKeepsTheInvariant : Prop :=
  ∀ s : State, s.Inv →
    (∀ t, step s = .next t → t.Inv) ∧ ∀ f, step s = .fault f → f.after.Inv

/-- The same for every operation of the host, instructions it built itself included. -/
def Obligations.EveryHostOperationKeepsTheInvariant : Prop :=
  ∀ (o : HostOp) (s : State), s.Inv → (hostOp o s).2.Inv

/-! ## Runs, loader and boot -/

/-- spec/70_reset_and_hazards.md section 6 (R291): a run that ended before its budget was used up, by a fault or by the stop
condition, ends in the same way with any larger budget. -/
def Obligations.ARunThatEndedDoesNotDependOnItsBudget : Prop :=
  ∀ (stop : StopPoint → State → Option Instr → Bool) (n k : Nat) (last : Option Instr) (s : State),
    (∀ s', runCycles stop n last s ≠ .outOfFuel s') → runCycles stop (n + k) last s = runCycles stop n last s

/-- spec/70_reset_and_hazards.md section 3 (R278, R279) with D29 (log 26). A segment that does not fit raises
`SegmentOutOfBounds` and leaves memory as it was; one that fits has its file bytes copied to its physical address and the
rest of its memory size zero-filled, and no other byte changes. -/
def Obligations.SegmentsAreCheckedCopiedAndZeroFilled : Prop :=
  ∀ (buf : List Byte) (o : Nat) (p : ProgramHeader) (m : Memory), m.wf →
    (m.size < p.paddr.toNat + p.memsz.toNat →
        loadSegment buf p m = .error (.error (.segmentOutOfBounds p.paddr p.memsz))
          ∧ (programHeaderAt buf o = p → p.type = 1#32 →
            ∀ rest, loadSegments buf (o :: rest) m = .failed (.segmentOutOfBounds p.paddr p.memsz) m))
      ∧ (p.paddr.toNat + p.memsz.toNat ≤ m.size → p.filesz.toNat ≤ p.memsz.toNat →
        p.offset.toNat + p.filesz.toNat ≤ buf.length →
        ∃ m', loadSegment buf p m = .ok m' ∧ m'.size = m.size
          ∧ (∀ k, k < p.filesz.toNat → m'.byteAt (p.paddr.toNat + k) = buf.getD (p.offset.toNat + k) 0#8)
          ∧ (∀ k, p.filesz.toNat ≤ k → k < p.memsz.toNat → m'.byteAt (p.paddr.toNat + k) = 0x00#8)
          ∧ ∀ a, a < p.paddr.toNat ∨ p.paddr.toNat + p.memsz.toNat ≤ a → m'.byteAt a = m.byteAt a)

/-- spec/70_reset_and_hazards.md section 3 (R274 to R276) with D29 (log 26): an unreadable file, a wrong class or encoding
and a structural failure each give their error and leave memory as it was, before any segment is touched. A structural
failure is a file that is too short for a header, has no magic, whose program header table does not lie in the file (a table
of no bytes past the end included: this model's choice, log 26), with a program header that does not (DEDUCED from C8, log 26),
or that ELF_PARSE_OK rejects. Every other file goes on to its segments. -/
def Obligations.TheLoaderRejectsBeforeTouchingMemory : Prop :=
  ∀ (parseOk : List Byte → Bool) (m : Memory) (buf : List Byte),
    loadElf parseOk none m = .failed .io m
      ∧ (6 ≤ buf.length → ¬(buf.getD 4 0#8 = 1#8 ∧ buf.getD 5 0#8 = 1#8) →
        loadElf parseOk (some buf) m = .failed (.unsupportedFormat (buf.getD 4 0#8) (buf.getD 5 0#8)) m)
      ∧ (buf.length < 6 → loadElf parseOk (some buf) m = .failed .parse m)
      ∧ (buf.getD 4 0#8 = 1#8 → buf.getD 5 0#8 = 1#8 →
        buf.length < 52 ∨ buf.take 4 ≠ [0x7F#8, 0x45#8, 0x4C#8, 0x46#8]
          ∨ buf.length < (fileWord buf 28).toNat + (fileHalf buf 44).toNat * (fileHalf buf 42).toNat
          ∨ (∃ i, i < (fileHalf buf 44).toNat ∧ buf.length < (fileWord buf 28).toNat + i * (fileHalf buf 42).toNat + 32)
          ∨ parseOk buf = false →
        loadElf parseOk (some buf) m = .failed .parse m)
      ∧ (buf.getD 4 0#8 = 1#8 → buf.getD 5 0#8 = 1#8 → 52 ≤ buf.length →
        buf.take 4 = [0x7F#8, 0x45#8, 0x4C#8, 0x46#8] →
        (fileWord buf 28).toNat + (fileHalf buf 44).toNat * (fileHalf buf 42).toNat ≤ buf.length →
        (∀ i, i < (fileHalf buf 44).toNat →
          (fileWord buf 28).toNat + i * (fileHalf buf 42).toNat + 32 ≤ buf.length) →
        parseOk buf = true →
        loadElf parseOk (some buf) m = loadSegments buf (programHeaderOffsets buf) m)

/-- spec/70_reset_and_hazards.md sections 1 and 2 (R271, R273, R283) with D4 (log 2): a boot that launches a core starts it
idle with its pc set to the file's entry address, unchecked, with every register 0, in the memory the load gave. -/
def Obligations.ABootStartsAtTheEntry : Prop :=
  ∀ (maxSize memSize : Nat) (parseOk : List Byte → Bool) (buf : List Byte) (h : Session),
    boot maxSize memSize parseOk (some buf) = .launched h →
      h.core.pc = elfEntry buf ∧ h.pcSet = true ∧ (∀ r, h.core.readReg r = 0x00000000#32) ∧ h.core.phase = .idle
        ∧ h.core.mem.size = memSize
        ∧ ∃ m, memNew maxSize memSize = .ok m ∧ loadElf parseOk (some buf) m = .loaded (elfEntry buf) h.core.mem

/-- spec/70_reset_and_hazards.md section 6 (R292) with D34 (log 29, log 33): from a fresh core the host has every sequence of
operations but one with a `step` before the first `set_pc`, each move is the operation itself, and no run starts before the
pc is set. -/
def Obligations.TheHostSetsThePcBeforeItsFirstStep : Prop :=
  (∀ (s : State) (before after : List HostOp), (∀ v, HostOp.setPc v ∉ before) →
      (Session.fresh s).moves (before ++ .step :: after) = none)
    ∧ (∀ (h : Session) (o : HostOp), o ≠ .step ∨ h.pcSet = true →
        ∃ h', h.move o = some ((hostOp o h.core).1, h') ∧ h'.core = (hostOp o h.core).2)
    ∧ (∀ (h : Session) (v : Word) (ops : List HostOp), ∃ k, h.moves (.setPc v :: ops) = some k)
    ∧ ∀ (stop : StopPoint → State → Option Instr → Bool) (fuel : Nat) (h : Session),
        (h.pcSet = false → h.run stop fuel = none)
          ∧ (h.pcSet = true → h.run stop fuel = some (runCycles stop fuel none h.core))
end

