-- ==== Sys2Proof/Laws/Decode.lean ====
section
/-! SUPPORT. The fields of an encoded word, one lemma per field and format, and the values that a decoded immediate can have. -/

namespace Sys2Proof

/-! ## R format -/

@[simp] theorem opcodeOf_encodeR (f7 : Funct7) (rs2 rs1 : RegIdx) (f3 : BitVec 3) (rd : RegIdx) (o : BitVec 7) :
    opcodeOf (encodeR f7 rs2 rs1 f3 rd o) = o := by
  apply BitVec.eq_of_getLsbD_eq
  intro i hi
  change BitVec.getLsbD (BitVec.extractLsb' (n := 7 + 5 + 5 + 3 + 5 + 7) 0 7 (_ ++ _ ++ _ ++ _ ++ _ ++ _)) i = _
  simp only [BitVec.getLsbD_append, BitVec.getLsbD_extractLsb']
  grind

@[simp] theorem funct3Of_encodeR (f7 : Funct7) (rs2 rs1 : RegIdx) (f3 : BitVec 3) (rd : RegIdx) (o : BitVec 7) :
    funct3Of (encodeR f7 rs2 rs1 f3 rd o) = f3 := by
  apply BitVec.eq_of_getLsbD_eq
  intro i hi
  change BitVec.getLsbD (BitVec.extractLsb' (n := 7 + 5 + 5 + 3 + 5 + 7) 12 3 (_ ++ _ ++ _ ++ _ ++ _ ++ _)) i = _
  simp only [BitVec.getLsbD_append, BitVec.getLsbD_extractLsb']
  grind

@[simp] theorem funct7Of_encodeR (f7 : Funct7) (rs2 rs1 : RegIdx) (f3 : BitVec 3) (rd : RegIdx) (o : BitVec 7) :
    funct7Of (encodeR f7 rs2 rs1 f3 rd o) = f7 := by
  apply BitVec.eq_of_getLsbD_eq
  intro i hi
  change BitVec.getLsbD (BitVec.extractLsb' (n := 7 + 5 + 5 + 3 + 5 + 7) 25 7 (_ ++ _ ++ _ ++ _ ++ _ ++ _)) i = _
  simp only [BitVec.getLsbD_append, BitVec.getLsbD_extractLsb']
  grind

@[simp] theorem rdOf_encodeR (f7 : Funct7) (rs2 rs1 : RegIdx) (f3 : BitVec 3) (rd : RegIdx) (o : BitVec 7) :
    rdOf (encodeR f7 rs2 rs1 f3 rd o) = rd := by
  apply BitVec.eq_of_getLsbD_eq
  intro i hi
  change BitVec.getLsbD (BitVec.extractLsb' (n := 7 + 5 + 5 + 3 + 5 + 7) 7 5 (_ ++ _ ++ _ ++ _ ++ _ ++ _)) i = _
  simp only [BitVec.getLsbD_append, BitVec.getLsbD_extractLsb']
  grind

@[simp] theorem rs1Of_encodeR (f7 : Funct7) (rs2 rs1 : RegIdx) (f3 : BitVec 3) (rd : RegIdx) (o : BitVec 7) :
    rs1Of (encodeR f7 rs2 rs1 f3 rd o) = rs1 := by
  apply BitVec.eq_of_getLsbD_eq
  intro i hi
  change BitVec.getLsbD (BitVec.extractLsb' (n := 7 + 5 + 5 + 3 + 5 + 7) 15 5 (_ ++ _ ++ _ ++ _ ++ _ ++ _)) i = _
  simp only [BitVec.getLsbD_append, BitVec.getLsbD_extractLsb']
  grind

@[simp] theorem rs2Of_encodeR (f7 : Funct7) (rs2 rs1 : RegIdx) (f3 : BitVec 3) (rd : RegIdx) (o : BitVec 7) :
    rs2Of (encodeR f7 rs2 rs1 f3 rd o) = rs2 := by
  apply BitVec.eq_of_getLsbD_eq
  intro i hi
  change BitVec.getLsbD (BitVec.extractLsb' (n := 7 + 5 + 5 + 3 + 5 + 7) 20 5 (_ ++ _ ++ _ ++ _ ++ _ ++ _)) i = _
  simp only [BitVec.getLsbD_append, BitVec.getLsbD_extractLsb']
  grind

@[simp] theorem shamtOf_encodeR (f7 : Funct7) (rs2 rs1 : RegIdx) (f3 : BitVec 3) (rd : RegIdx) (o : BitVec 7) :
    shamtOf (encodeR f7 rs2 rs1 f3 rd o) = rs2 := by
  apply BitVec.eq_of_getLsbD_eq
  intro i hi
  change BitVec.getLsbD (BitVec.extractLsb' (n := 7 + 5 + 5 + 3 + 5 + 7) 20 5 (_ ++ _ ++ _ ++ _ ++ _ ++ _)) i = _
  simp only [BitVec.getLsbD_append, BitVec.getLsbD_extractLsb']
  grind

/-! ## I format -/

@[simp] theorem opcodeOf_encodeI (imm : Word) (rs1 : RegIdx) (f3 : BitVec 3) (rd : RegIdx) (o : BitVec 7) :
    opcodeOf (encodeI imm rs1 f3 rd o) = o := by
  apply BitVec.eq_of_getLsbD_eq
  intro i hi
  change BitVec.getLsbD (BitVec.extractLsb' (n := 12 + 5 + 3 + 5 + 7) 0 7 (_ ++ _ ++ _ ++ _ ++ _)) i = _
  simp only [BitVec.getLsbD_append, BitVec.getLsbD_extractLsb']
  grind

@[simp] theorem funct3Of_encodeI (imm : Word) (rs1 : RegIdx) (f3 : BitVec 3) (rd : RegIdx) (o : BitVec 7) :
    funct3Of (encodeI imm rs1 f3 rd o) = f3 := by
  apply BitVec.eq_of_getLsbD_eq
  intro i hi
  change BitVec.getLsbD (BitVec.extractLsb' (n := 12 + 5 + 3 + 5 + 7) 12 3 (_ ++ _ ++ _ ++ _ ++ _)) i = _
  simp only [BitVec.getLsbD_append, BitVec.getLsbD_extractLsb']
  grind

@[simp] theorem rdOf_encodeI (imm : Word) (rs1 : RegIdx) (f3 : BitVec 3) (rd : RegIdx) (o : BitVec 7) :
    rdOf (encodeI imm rs1 f3 rd o) = rd := by
  apply BitVec.eq_of_getLsbD_eq
  intro i hi
  change BitVec.getLsbD (BitVec.extractLsb' (n := 12 + 5 + 3 + 5 + 7) 7 5 (_ ++ _ ++ _ ++ _ ++ _)) i = _
  simp only [BitVec.getLsbD_append, BitVec.getLsbD_extractLsb']
  grind

@[simp] theorem rs1Of_encodeI (imm : Word) (rs1 : RegIdx) (f3 : BitVec 3) (rd : RegIdx) (o : BitVec 7) :
    rs1Of (encodeI imm rs1 f3 rd o) = rs1 := by
  apply BitVec.eq_of_getLsbD_eq
  intro i hi
  change BitVec.getLsbD (BitVec.extractLsb' (n := 12 + 5 + 3 + 5 + 7) 15 5 (_ ++ _ ++ _ ++ _ ++ _)) i = _
  simp only [BitVec.getLsbD_append, BitVec.getLsbD_extractLsb']
  grind

/-! ## S format -/

@[simp] theorem opcodeOf_encodeS (imm : Word) (rs2 rs1 : RegIdx) (f3 : BitVec 3) (o : BitVec 7) :
    opcodeOf (encodeS imm rs2 rs1 f3 o) = o := by
  apply BitVec.eq_of_getLsbD_eq
  intro i hi
  change BitVec.getLsbD (BitVec.extractLsb' (n := 7 + 5 + 5 + 3 + 5 + 7) 0 7 (_ ++ _ ++ _ ++ _ ++ _ ++ _)) i = _
  simp only [BitVec.getLsbD_append, BitVec.getLsbD_extractLsb']
  grind

@[simp] theorem funct3Of_encodeS (imm : Word) (rs2 rs1 : RegIdx) (f3 : BitVec 3) (o : BitVec 7) :
    funct3Of (encodeS imm rs2 rs1 f3 o) = f3 := by
  apply BitVec.eq_of_getLsbD_eq
  intro i hi
  change BitVec.getLsbD (BitVec.extractLsb' (n := 7 + 5 + 5 + 3 + 5 + 7) 12 3 (_ ++ _ ++ _ ++ _ ++ _ ++ _)) i = _
  simp only [BitVec.getLsbD_append, BitVec.getLsbD_extractLsb']
  grind

@[simp] theorem rs1Of_encodeS (imm : Word) (rs2 rs1 : RegIdx) (f3 : BitVec 3) (o : BitVec 7) :
    rs1Of (encodeS imm rs2 rs1 f3 o) = rs1 := by
  apply BitVec.eq_of_getLsbD_eq
  intro i hi
  change BitVec.getLsbD (BitVec.extractLsb' (n := 7 + 5 + 5 + 3 + 5 + 7) 15 5 (_ ++ _ ++ _ ++ _ ++ _ ++ _)) i = _
  simp only [BitVec.getLsbD_append, BitVec.getLsbD_extractLsb']
  grind

@[simp] theorem rs2Of_encodeS (imm : Word) (rs2 rs1 : RegIdx) (f3 : BitVec 3) (o : BitVec 7) :
    rs2Of (encodeS imm rs2 rs1 f3 o) = rs2 := by
  apply BitVec.eq_of_getLsbD_eq
  intro i hi
  change BitVec.getLsbD (BitVec.extractLsb' (n := 7 + 5 + 5 + 3 + 5 + 7) 20 5 (_ ++ _ ++ _ ++ _ ++ _ ++ _)) i = _
  simp only [BitVec.getLsbD_append, BitVec.getLsbD_extractLsb']
  grind

/-! ## B format -/

@[simp] theorem opcodeOf_encodeB (imm : Word) (rs2 rs1 : RegIdx) (f3 : BitVec 3) (o : BitVec 7) :
    opcodeOf (encodeB imm rs2 rs1 f3 o) = o := by
  apply BitVec.eq_of_getLsbD_eq
  intro i hi
  change BitVec.getLsbD (BitVec.extractLsb' (n := 1 + 6 + 5 + 5 + 3 + 4 + 1 + 7) 0 7 (_ ++ _ ++ _ ++ _ ++ _ ++ _ ++ _ ++ _)) i = _
  simp only [BitVec.getLsbD_append, BitVec.getLsbD_extractLsb']
  grind

@[simp] theorem funct3Of_encodeB (imm : Word) (rs2 rs1 : RegIdx) (f3 : BitVec 3) (o : BitVec 7) :
    funct3Of (encodeB imm rs2 rs1 f3 o) = f3 := by
  apply BitVec.eq_of_getLsbD_eq
  intro i hi
  change BitVec.getLsbD (BitVec.extractLsb' (n := 1 + 6 + 5 + 5 + 3 + 4 + 1 + 7) 12 3 (_ ++ _ ++ _ ++ _ ++ _ ++ _ ++ _ ++ _)) i = _
  simp only [BitVec.getLsbD_append, BitVec.getLsbD_extractLsb']
  grind

@[simp] theorem rs1Of_encodeB (imm : Word) (rs2 rs1 : RegIdx) (f3 : BitVec 3) (o : BitVec 7) :
    rs1Of (encodeB imm rs2 rs1 f3 o) = rs1 := by
  apply BitVec.eq_of_getLsbD_eq
  intro i hi
  change BitVec.getLsbD (BitVec.extractLsb' (n := 1 + 6 + 5 + 5 + 3 + 4 + 1 + 7) 15 5 (_ ++ _ ++ _ ++ _ ++ _ ++ _ ++ _ ++ _)) i = _
  simp only [BitVec.getLsbD_append, BitVec.getLsbD_extractLsb']
  grind

@[simp] theorem rs2Of_encodeB (imm : Word) (rs2 rs1 : RegIdx) (f3 : BitVec 3) (o : BitVec 7) :
    rs2Of (encodeB imm rs2 rs1 f3 o) = rs2 := by
  apply BitVec.eq_of_getLsbD_eq
  intro i hi
  change BitVec.getLsbD (BitVec.extractLsb' (n := 1 + 6 + 5 + 5 + 3 + 4 + 1 + 7) 20 5 (_ ++ _ ++ _ ++ _ ++ _ ++ _ ++ _ ++ _)) i = _
  simp only [BitVec.getLsbD_append, BitVec.getLsbD_extractLsb']
  grind

/-! ## U format -/

@[simp] theorem opcodeOf_encodeU (imm : Word) (rd : RegIdx) (o : BitVec 7) :
    opcodeOf (encodeU imm rd o) = o := by
  apply BitVec.eq_of_getLsbD_eq
  intro i hi
  change BitVec.getLsbD (BitVec.extractLsb' (n := 20 + 5 + 7) 0 7 (_ ++ _ ++ _)) i = _
  simp only [BitVec.getLsbD_append, BitVec.getLsbD_extractLsb']
  grind

@[simp] theorem rdOf_encodeU (imm : Word) (rd : RegIdx) (o : BitVec 7) :
    rdOf (encodeU imm rd o) = rd := by
  apply BitVec.eq_of_getLsbD_eq
  intro i hi
  change BitVec.getLsbD (BitVec.extractLsb' (n := 20 + 5 + 7) 7 5 (_ ++ _ ++ _)) i = _
  simp only [BitVec.getLsbD_append, BitVec.getLsbD_extractLsb']
  grind

/-! ## J format -/

@[simp] theorem opcodeOf_encodeJ (imm : Word) (rd : RegIdx) (o : BitVec 7) :
    opcodeOf (encodeJ imm rd o) = o := by
  apply BitVec.eq_of_getLsbD_eq
  intro i hi
  change BitVec.getLsbD (BitVec.extractLsb' (n := 1 + 10 + 1 + 8 + 5 + 7) 0 7 (_ ++ _ ++ _ ++ _ ++ _ ++ _)) i = _
  simp only [BitVec.getLsbD_append, BitVec.getLsbD_extractLsb']
  grind

@[simp] theorem rdOf_encodeJ (imm : Word) (rd : RegIdx) (o : BitVec 7) :
    rdOf (encodeJ imm rd o) = rd := by
  apply BitVec.eq_of_getLsbD_eq
  intro i hi
  change BitVec.getLsbD (BitVec.extractLsb' (n := 1 + 10 + 1 + 8 + 5 + 7) 7 5 (_ ++ _ ++ _ ++ _ ++ _ ++ _)) i = _
  simp only [BitVec.getLsbD_append, BitVec.getLsbD_extractLsb']
  grind

/-! ## Immediates of an encoded word -/

theorem immI_encodeI_bits (imm : Word) (rs1 : RegIdx) (f3 : BitVec 3) (rd : RegIdx) (o : BitVec 7) :
    immI (encodeI imm rs1 f3 rd o) = (imm.extractLsb' 0 12).signExtend 32 := by
  unfold immI
  congr 1
  apply BitVec.eq_of_getLsbD_eq
  intro i hi
  change BitVec.getLsbD (BitVec.extractLsb' (n := 12 + 5 + 3 + 5 + 7) 20 12 (_ ++ _ ++ _ ++ _ ++ _)) i = _
  simp only [BitVec.getLsbD_append, BitVec.getLsbD_extractLsb']
  grind

theorem immS_encodeS_bits (imm : Word) (rs2 rs1 : RegIdx) (f3 : BitVec 3) (o : BitVec 7) :
    immS (encodeS imm rs2 rs1 f3 o) = (imm.extractLsb' 0 12).signExtend 32 := by
  unfold immS
  congr 1
  apply BitVec.eq_of_getLsbD_eq
  intro i hi
  change BitVec.getLsbD (w := 7 + 5)
    (BitVec.extractLsb' (n := 7 + 5 + 5 + 3 + 5 + 7) 25 7 (_ ++ _ ++ _ ++ _ ++ _ ++ _)
      ++ BitVec.extractLsb' (n := 7 + 5 + 5 + 3 + 5 + 7) 7 5 (_ ++ _ ++ _ ++ _ ++ _ ++ _)) i = _
  simp only [BitVec.getLsbD_append, BitVec.getLsbD_extractLsb']
  grind

theorem immU_encodeU_bits (imm : Word) (rd : RegIdx) (o : BitVec 7) :
    immU (encodeU imm rd o) = imm.extractLsb' 12 20 ++ 0#12 := by
  unfold immU
  congr 1
  apply BitVec.eq_of_getLsbD_eq
  intro i hi
  change BitVec.getLsbD (BitVec.extractLsb' (n := 20 + 5 + 7) 12 20 (_ ++ _ ++ _)) i = _
  simp only [BitVec.getLsbD_append, BitVec.getLsbD_extractLsb']
  grind

/-- An even immediate keeps its 13 low bits through the B format. -/
theorem immB_encodeB_bits (imm : Word) (rs2 rs1 : RegIdx) (f3 : BitVec 3) (o : BitVec 7)
    (h : imm.getLsbD 0 = false) :
    immB (encodeB imm rs2 rs1 f3 o) = (imm.extractLsb' 0 13).signExtend 32 := by
  unfold immB
  congr 1
  apply BitVec.eq_of_getLsbD_eq
  intro i hi
  change BitVec.getLsbD (w := 1 + 1 + 6 + 4 + 1)
    (BitVec.extractLsb' (n := 1 + 6 + 5 + 5 + 3 + 4 + 1 + 7) 31 1 (_ ++ _ ++ _ ++ _ ++ _ ++ _ ++ _ ++ _)
      ++ BitVec.extractLsb' (n := 1 + 6 + 5 + 5 + 3 + 4 + 1 + 7) 7 1 (_ ++ _ ++ _ ++ _ ++ _ ++ _ ++ _ ++ _)
      ++ BitVec.extractLsb' (n := 1 + 6 + 5 + 5 + 3 + 4 + 1 + 7) 25 6 (_ ++ _ ++ _ ++ _ ++ _ ++ _ ++ _ ++ _)
      ++ BitVec.extractLsb' (n := 1 + 6 + 5 + 5 + 3 + 4 + 1 + 7) 8 4 (_ ++ _ ++ _ ++ _ ++ _ ++ _ ++ _ ++ _)
      ++ 0#1) i = _
  simp only [BitVec.getLsbD_append, BitVec.getLsbD_extractLsb', BitVec.getLsbD_zero]
  grind

/-- An even immediate keeps its 21 low bits through the J format. -/
theorem immJ_encodeJ_bits (imm : Word) (rd : RegIdx) (o : BitVec 7) (h : imm.getLsbD 0 = false) :
    immJ (encodeJ imm rd o) = (imm.extractLsb' 0 21).signExtend 32 := by
  unfold immJ
  congr 1
  apply BitVec.eq_of_getLsbD_eq
  intro i hi
  change BitVec.getLsbD (w := 1 + 8 + 1 + 10 + 1)
    (BitVec.extractLsb' (n := 1 + 10 + 1 + 8 + 5 + 7) 31 1 (_ ++ _ ++ _ ++ _ ++ _ ++ _)
      ++ BitVec.extractLsb' (n := 1 + 10 + 1 + 8 + 5 + 7) 12 8 (_ ++ _ ++ _ ++ _ ++ _ ++ _)
      ++ BitVec.extractLsb' (n := 1 + 10 + 1 + 8 + 5 + 7) 20 1 (_ ++ _ ++ _ ++ _ ++ _ ++ _)
      ++ BitVec.extractLsb' (n := 1 + 10 + 1 + 8 + 5 + 7) 21 10 (_ ++ _ ++ _ ++ _ ++ _ ++ _)
      ++ 0#1) i = _
  simp only [BitVec.getLsbD_append, BitVec.getLsbD_extractLsb', BitVec.getLsbD_zero]
  grind

/-! ## Ranges -/

/-- A word whose value fits in 12 signed bits is the sign extension of its 12 low bits. -/
theorem signExtend_low_12 (imm : Word) (lo : -2048 ≤ imm.toInt) (hi : imm.toInt < 2048) :
    (imm.extractLsb' 0 12).signExtend 32 = imm := by
  apply BitVec.eq_of_toInt_eq
  rw [BitVec.toInt_signExtend]
  simp
  rw [Int.bmod_def]
  have := imm.isLt
  simp [BitVec.toInt_eq_toNat_cond] at *
  omega

/-- A sign extension from 12 bits fits in 12 signed bits. -/
theorem toInt_signExtend_12 (v : BitVec 12) :
    -2048 ≤ (v.signExtend 32).toInt ∧ (v.signExtend 32).toInt < 2048 := by
  rw [BitVec.toInt_signExtend_of_le (by decide)]
  have h1 := BitVec.le_toInt v
  have h2 := BitVec.toInt_lt (x := v)
  simp at h1 h2
  omega

/-- A word whose value fits in 13 signed bits is the sign extension of its 13 low bits. -/
theorem signExtend_low_13 (imm : Word) (lo : -4096 ≤ imm.toInt) (hi : imm.toInt < 4096) :
    (imm.extractLsb' 0 13).signExtend 32 = imm := by
  apply BitVec.eq_of_toInt_eq
  rw [BitVec.toInt_signExtend]
  simp
  rw [Int.bmod_def]
  have := imm.isLt
  simp [BitVec.toInt_eq_toNat_cond] at *
  omega

/-- A sign extension from 13 bits fits in 13 signed bits. -/
theorem toInt_signExtend_13 (v : BitVec 13) :
    -4096 ≤ (v.signExtend 32).toInt ∧ (v.signExtend 32).toInt < 4096 := by
  rw [BitVec.toInt_signExtend_of_le (by decide)]
  have h1 := BitVec.le_toInt v
  have h2 := BitVec.toInt_lt (x := v)
  simp at h1 h2
  omega

/-- A word whose value fits in 21 signed bits is the sign extension of its 21 low bits. -/
theorem signExtend_low_21 (imm : Word) (lo : -1048576 ≤ imm.toInt) (hi : imm.toInt < 1048576) :
    (imm.extractLsb' 0 21).signExtend 32 = imm := by
  apply BitVec.eq_of_toInt_eq
  rw [BitVec.toInt_signExtend]
  simp
  rw [Int.bmod_def]
  have := imm.isLt
  simp [BitVec.toInt_eq_toNat_cond] at *
  omega

/-- A sign extension from 21 bits fits in 21 signed bits. -/
theorem toInt_signExtend_21 (v : BitVec 21) :
    -1048576 ≤ (v.signExtend 32).toInt ∧ (v.signExtend 32).toInt < 1048576 := by
  rw [BitVec.toInt_signExtend_of_le (by decide)]
  have h1 := BitVec.le_toInt v
  have h2 := BitVec.toInt_lt (x := v)
  simp at h1 h2
  omega

/-- An even word has bit 0 clear. -/
theorem bit0_of_even (imm : Word) (h : imm.toInt % 2 = 0) : imm.getLsbD 0 = false := by
  have h' : imm.toNat % 2 = 0 := by
    simp only [BitVec.toInt_eq_toNat_cond] at h
    split at h <;> omega
  simp [BitVec.getLsbD, Nat.testBit_zero, h']

/-- A word with bit 0 clear is even. -/
theorem even_of_bit0 (imm : Word) (h : imm.getLsbD 0 = false) : imm.toInt % 2 = 0 := by
  have h' : imm.toNat % 2 = 0 := by
    simpa [BitVec.getLsbD, Nat.testBit_zero] using h
  simp only [BitVec.toInt_eq_toNat_cond]
  split <;> omega

/-- An immediate assembled with a trailing zero has bit 0 clear. -/
theorem bit0_of_trailing_zero {n : Nat} (v : BitVec n) : ((v ++ 0#1).signExtend 32).getLsbD 0 = false := by
  rw [BitVec.getLsbD_signExtend]
  simp [BitVec.getElem_append]

/-! ## Immediates in their ranges survive encoding -/

theorem immI_encodeI {imm : Word} (rs1 : RegIdx) (f3 : BitVec 3) (rd : RegIdx) (o : BitVec 7)
    (h : immFits12 imm = true) : immI (encodeI imm rs1 f3 rd o) = imm := by
  simp only [immFits12, Bool.and_eq_true, decide_eq_true_eq] at h
  rw [immI_encodeI_bits, signExtend_low_12 imm h.1 (by omega)]

theorem immS_encodeS {imm : Word} (rs2 rs1 : RegIdx) (f3 : BitVec 3) (o : BitVec 7)
    (h : immFits12 imm = true) : immS (encodeS imm rs2 rs1 f3 o) = imm := by
  simp only [immFits12, Bool.and_eq_true, decide_eq_true_eq] at h
  rw [immS_encodeS_bits, signExtend_low_12 imm h.1 (by omega)]

theorem immB_encodeB {imm : Word} (rs2 rs1 : RegIdx) (f3 : BitVec 3) (o : BitVec 7)
    (h : immFitsB imm = true) : immB (encodeB imm rs2 rs1 f3 o) = imm := by
  simp only [immFitsB, Bool.and_eq_true, decide_eq_true_eq] at h
  rw [immB_encodeB_bits _ _ _ _ _ (bit0_of_even imm h.2), signExtend_low_13 imm h.1.1 (by omega)]

theorem immJ_encodeJ {imm : Word} (rd : RegIdx) (o : BitVec 7)
    (h : immFitsJ imm = true) : immJ (encodeJ imm rd o) = imm := by
  simp only [immFitsJ, Bool.and_eq_true, decide_eq_true_eq] at h
  rw [immJ_encodeJ_bits _ _ _ (bit0_of_even imm h.2), signExtend_low_21 imm h.1.1 (by omega)]

theorem immU_encodeU {imm : Word} (rd : RegIdx) (o : BitVec 7)
    (h : immFitsU imm = true) : immU (encodeU imm rd o) = imm := by
  have h0 : imm.extractLsb' 0 12 = 0#12 := by simpa [immFitsU] using h
  rw [immU_encodeU_bits]
  apply BitVec.eq_of_getLsbD_eq
  intro i hi
  have hb : ∀ j, j < 12 → imm.getLsbD j = false := fun j hj => by
    have := congrArg (fun v => BitVec.getLsbD v j) h0
    simpa [hj] using this
  change BitVec.getLsbD (w := 20 + 12) (_ ++ 0#12) i = _
  simp only [BitVec.getLsbD_append, BitVec.getLsbD_extractLsb', BitVec.getLsbD_zero]
  grind

/-! ## A decoded immediate lies in its range -/

theorem immI_fits (w : Word) : immFits12 (immI w) = true := by
  have := toInt_signExtend_12 (w.extractLsb' 20 12)
  simp only [immFits12, Bool.and_eq_true, decide_eq_true_eq]
  unfold immI
  omega

theorem immS_fits (w : Word) : immFits12 (immS w) = true := by
  have := toInt_signExtend_12 (w.extractLsb' 25 7 ++ w.extractLsb' 7 5)
  simp only [immFits12, Bool.and_eq_true, decide_eq_true_eq]
  unfold immS
  omega

theorem immB_fits (w : Word) : immFitsB (immB w) = true := by
  have := toInt_signExtend_13
    (w.extractLsb' 31 1 ++ w.extractLsb' 7 1 ++ w.extractLsb' 25 6 ++ w.extractLsb' 8 4 ++ 0#1)
  have he : (immB w).toInt % 2 = 0 := even_of_bit0 _ (bit0_of_trailing_zero _)
  simp only [immFitsB, Bool.and_eq_true, decide_eq_true_eq]
  unfold immB at he ⊢
  omega

theorem immJ_fits (w : Word) : immFitsJ (immJ w) = true := by
  have := toInt_signExtend_21
    (w.extractLsb' 31 1 ++ w.extractLsb' 12 8 ++ w.extractLsb' 20 1 ++ w.extractLsb' 21 10 ++ 0#1)
  have he : (immJ w).toInt % 2 = 0 := even_of_bit0 _ (bit0_of_trailing_zero _)
  simp only [immFitsJ, Bool.and_eq_true, decide_eq_true_eq]
  unfold immJ at he ⊢
  omega

theorem immU_fits (w : Word) : immFitsU (immU w) = true := by
  have : (immU w).extractLsb' 0 12 = 0#12 := by
    apply BitVec.eq_of_getLsbD_eq
    intro i hi
    change BitVec.getLsbD (BitVec.extractLsb' (n := 20 + 12) 0 12 (_ ++ 0#12)) i = _
    simp only [BitVec.getLsbD_append, BitVec.getLsbD_extractLsb', BitVec.getLsbD_zero]
    grind
  simp [immFitsU, this]

/-! ## Everything the decoder can answer -/

theorem decodeOpImm_cases (w : Word) :
    ((funct3Of w = 1#3 ∨ funct3Of w = 5#3)
      ∧ decodeOpImm w
        = .shiftImm (rdOf w) (rs1Of w) (shamtOf w) (decide (funct3Of w = 5#3 ∧ funct7Of w = 0x20#7)))
    ∨ (funct3Of w ≠ 1#3 ∧ funct3Of w ≠ 5#3 ∧ decodeOpImm w = .opImm (rdOf w) (rs1Of w) (immI w)) := by
  unfold decodeOpImm
  by_cases h : funct3Of w = 1#3 ∨ funct3Of w = 5#3
  · exact .inl ⟨h, if_pos h⟩
  · exact .inr ⟨fun h1 => h (.inl h1), fun h5 => h (.inr h5), if_neg h⟩

theorem decodeOp_cases (w : Word) :
    (funct7Of w ≠ 0x01#7 ∧ decodeOp w = .ok (.op (rdOf w) (rs1Of w) (rs2Of w) (funct7Of w)))
    ∨ (funct7Of w = 0x01#7 ∧ funct3Of w = 0#3 ∧ decodeOp w = .ok (.mul (rdOf w) (rs1Of w) (rs2Of w)))
    ∨ (funct7Of w = 0x01#7 ∧ funct3Of w = 4#3 ∧ decodeOp w = .ok (.div (rdOf w) (rs1Of w) (rs2Of w)))
    ∨ (funct7Of w = 0x01#7 ∧ funct3Of w = 5#3 ∧ decodeOp w = .ok (.divu (rdOf w) (rs1Of w) (rs2Of w)))
    ∨ (funct7Of w = 0x01#7 ∧ funct3Of w = 6#3 ∧ decodeOp w = .ok (.rem (rdOf w) (rs1Of w) (rs2Of w)))
    ∨ (funct7Of w = 0x01#7 ∧ funct3Of w = 7#3 ∧ decodeOp w = .ok (.remu (rdOf w) (rs1Of w) (rs2Of w)))
    ∨ (funct7Of w = 0x01#7 ∧ (funct3Of w = 1#3 ∨ funct3Of w = 2#3 ∨ funct3Of w = 3#3)
      ∧ decodeOp w = .error (.invalidInstruction w)) := by
  have all : ∀ x : BitVec 3, x = 0#3 ∨ x = 4#3 ∨ x = 5#3 ∨ x = 6#3 ∨ x = 7#3 ∨ x = 1#3 ∨ x = 2#3 ∨ x = 3#3 := by
    decide
  by_cases h7 : funct7Of w = 0x01#7
  · rcases all (funct3Of w) with h | h | h | h | h | h | h | h <;> simp [decodeOp, h7, h]
  · exact .inl ⟨h7, if_neg h7⟩

theorem decodeSystem_cases (w : Word) :
    (funct3Of w = 0#3 ∧ imm12Of w = 0#12 ∧ decodeSystem w = .ok .ecall)
    ∨ (funct3Of w = 0#3 ∧ imm12Of w = 1#12 ∧ decodeSystem w = .ok .ebreak)
    ∨ (¬(funct3Of w = 0#3 ∧ (imm12Of w = 0#12 ∨ imm12Of w = 1#12))
      ∧ decodeSystem w = .error (.invalidInstruction w)) := by
  by_cases h3 : funct3Of w = 0#3
  · by_cases h0 : imm12Of w = 0#12
    · simp [decodeSystem, h3, h0]
    · by_cases h1 : imm12Of w = 1#12 <;> simp [decodeSystem, h3, h0, h1]
  · simp [decodeSystem, h3]

/-- The family of a word, by its opcode, and what the decoder answers for it. -/
theorem decode_cases (w : Word) :
    (opcodeOf w = 0x37#7 ∧ decode w = .ok (.lui (rdOf w) (immU w)))
    ∨ (opcodeOf w = 0x17#7 ∧ decode w = .ok (.auipc (rdOf w) (immU w)))
    ∨ (opcodeOf w = 0x6F#7 ∧ decode w = .ok (.jal (rdOf w) (immJ w)))
    ∨ (opcodeOf w = 0x67#7 ∧ decode w = .ok (.jalr (rdOf w) (rs1Of w) (immI w)))
    ∨ (opcodeOf w = 0x03#7 ∧ decode w = .ok (.load (rdOf w) (rs1Of w) (immI w)))
    ∨ (opcodeOf w = 0x13#7 ∧ decode w = .ok (decodeOpImm w))
    ∨ (opcodeOf w = 0x23#7 ∧ decode w = .ok (.store (rs1Of w) (rs2Of w) (immS w)))
    ∨ (opcodeOf w = 0x63#7 ∧ decode w = .ok (.branch (rs1Of w) (rs2Of w) (immB w)))
    ∨ ((opcodeOf w = 0x33#7 ∨ opcodeOf w = 0x3B#7) ∧ decode w = decodeOp w)
    ∨ (opcodeOf w = 0x73#7 ∧ decode w = decodeSystem w)
    ∨ (opcodeOf w ∉ knownOpcodes ∧ decode w = .error (.unknownOpcode (opcodeOf w))) := by
  by_cases h : opcodeOf w ∈ knownOpcodes
  · simp only [knownOpcodes, List.mem_cons, List.not_mem_nil, or_false] at h
    rcases h with h | h | h | h | h | h | h | h | h | h | h <;> simp [decode, h]
  · have hn := h
    simp only [knownOpcodes, List.mem_cons, List.not_mem_nil, or_false, not_or] at hn
    simp [decode, hn, knownOpcodes]

end Sys2Proof
end

