-- ==== Sys2Proof/Laws/Memory.lean ====
section
/-! SUPPORT. The laws of memory: a read after a write, the canonical form that every operation keeps, and what each checked accessor
can do. -/

namespace Sys2Proof.Machine

/-! ## Cells -/

theorem mem_putCell {l : List Host.Cell} {a : Nat} {v : Byte} {c : Host.Cell} (h : c ∈ putCell l a v) :
    (c = (a, v) ∧ v ≠ Config.unlistedByte) ∨ c ∈ l := by
  induction l with
  | nil =>
    simp only [putCell] at h
    split at h
    · simp at h
    · rename_i hv
      exact .inl ⟨by simpa using h, hv⟩
  | cons d rest ih =>
    simp only [putCell] at h
    split at h
    · split at h
      · exact .inr h
      · rename_i hv
        rcases List.mem_cons.1 h with h | h
        · exact .inl ⟨h, hv⟩
        · exact .inr h
    · split at h
      · split at h
        · exact .inr (List.mem_cons_of_mem _ h)
        · rename_i hv
          rcases List.mem_cons.1 h with h | h
          · exact .inl ⟨h, hv⟩
          · exact .inr (List.mem_cons_of_mem _ h)
      · rcases List.mem_cons.1 h with h | h
        · exact .inr (by simp [h])
        · exact (ih h).imp_right (List.mem_cons_of_mem _)

theorem putCell_pairwise {l : List Host.Cell} (a : Nat) (v : Byte)
    (h : l.Pairwise (fun c d => c.1 < d.1)) : (putCell l a v).Pairwise (fun c d => c.1 < d.1) := by
  induction l with
  | nil => simp only [putCell]; split <;> simp
  | cons d rest ih =>
    obtain ⟨hd, hrest⟩ := List.pairwise_cons.1 h
    simp only [putCell]
    split
    · rename_i hlt
      split
      · exact h
      · refine List.pairwise_cons.2 ⟨fun c hc => ?_, h⟩
        rcases List.mem_cons.1 hc with rfl | hc
        · exact hlt
        · exact Nat.lt_trans hlt (hd c hc)
    · split
      · rename_i heq
        split
        · exact hrest
        · exact List.pairwise_cons.2 ⟨fun c hc => by simpa [heq] using hd c hc, hrest⟩
      · refine List.pairwise_cons.2 ⟨fun c hc => ?_, ih hrest⟩
        rcases mem_putCell hc with ⟨rfl, -⟩ | hc
        · show d.1 < a
          omega
        · exact hd c hc

/-- An address below every listed one reads as unlisted. -/
theorem lookupCell_of_lt {l : List Host.Cell} {a : Nat} (h : ∀ c ∈ l, a < c.1) :
    lookupCell l a = Config.unlistedByte := by
  induction l with
  | nil => rfl
  | cons d rest ih =>
    have hd : d.1 ≠ a := (Nat.ne_of_lt (h d (by simp))).symm
    simp only [lookupCell, if_neg hd]
    exact ih fun c hc => h c (List.mem_cons_of_mem _ hc)

/-- Reading a cell after writing one, in a list whose addresses rise. -/
theorem lookupCell_putCell {l : List Host.Cell} (a : Nat) (v : Byte) (b : Nat)
    (h : l.Pairwise (fun c d => c.1 < d.1)) :
    lookupCell (putCell l a v) b = if b = a then v else lookupCell l b := by
  induction l with
  | nil =>
    simp only [putCell]
    split
    · rename_i hv
      by_cases hb : b = a <;> simp [lookupCell, hb, hv]
    · by_cases hb : b = a
      · simp [lookupCell, hb]
      · simp [lookupCell, hb, Ne.symm hb]
  | cons d rest ih =>
    obtain ⟨k, c⟩ := d
    obtain ⟨hd, hrest⟩ := List.pairwise_cons.1 h
    simp only [putCell]
    split
    · rename_i hlt
      have hlow : lookupCell ((k, c) :: rest) a = Config.unlistedByte :=
        lookupCell_of_lt fun x hx => by
          rcases List.mem_cons.1 hx with rfl | hx
          · exact hlt
          · exact Nat.lt_trans hlt (hd x hx)
      split
      · rename_i hv
        by_cases hb : b = a
        · rw [if_pos hb, hb, hlow, hv]
        · rw [if_neg hb]
      · by_cases hb : b = a
        · simp [lookupCell, hb]
        · simp [lookupCell, hb, Ne.symm hb]
    · split
      · rename_i heq
        subst heq
        have hlow : lookupCell rest a = Config.unlistedByte := lookupCell_of_lt hd
        split
        · rename_i hv
          by_cases hb : b = a
          · rw [if_pos hb, hb, hlow, hv]
          · simp [lookupCell, hb, Ne.symm hb]
        · by_cases hb : b = a
          · simp [lookupCell, hb]
          · simp [lookupCell, hb, Ne.symm hb]
      · rename_i hge hne
        by_cases hk : k = b
        · have hba : b ≠ a := fun hba => hne (by omega)
          simp [lookupCell, hk, hba]
        · simp [lookupCell, hk, ih hrest]

/-- Two canonical lists of cells that read alike are the same list. -/
theorem cells_ext {l₁ l₂ : List Host.Cell} (h₁ : l₁.Pairwise (fun c d => c.1 < d.1))
    (h₂ : l₂.Pairwise (fun c d => c.1 < d.1)) (n₁ : ∀ c ∈ l₁, c.2 ≠ Config.unlistedByte)
    (n₂ : ∀ c ∈ l₂, c.2 ≠ Config.unlistedByte) (h : ∀ a, lookupCell l₁ a = lookupCell l₂ a) : l₁ = l₂ := by
  induction l₁ generalizing l₂ with
  | nil =>
    cases l₂ with
    | nil => rfl
    | cons d _ => exact absurd (by simpa [lookupCell] using (h d.1).symm) (n₂ d (by simp))
  | cons c rest ih =>
    obtain ⟨hc, hrest⟩ := List.pairwise_cons.1 h₁
    cases l₂ with
    | nil => exact absurd (by simpa [lookupCell] using h c.1) (n₁ c (by simp))
    | cons d rest₂ =>
      obtain ⟨hd, hrest₂⟩ := List.pairwise_cons.1 h₂
      have low₁ : ∀ a, a < c.1 → lookupCell (c :: rest) a = Config.unlistedByte := fun a ha =>
        lookupCell_of_lt fun x hx => by
          rcases List.mem_cons.1 hx with rfl | hx
          · exact ha
          · exact Nat.lt_trans ha (hc x hx)
      have low₂ : ∀ a, a < d.1 → lookupCell (d :: rest₂) a = Config.unlistedByte := fun a ha =>
        lookupCell_of_lt fun x hx => by
          rcases List.mem_cons.1 hx with rfl | hx
          · exact ha
          · exact Nat.lt_trans ha (hd x hx)
      have head₁ : lookupCell (c :: rest) c.1 = c.2 := by simp [lookupCell]
      have head₂ : lookupCell (d :: rest₂) d.1 = d.2 := by simp [lookupCell]
      have key : c.1 = d.1 := by
        rcases Nat.lt_trichotomy c.1 d.1 with hlt | heq | hgt
        · exact absurd (by rw [← head₁, h, low₂ _ hlt]) (n₁ c (by simp))
        · exact heq
        · exact absurd (by rw [← head₂, ← h, low₁ _ hgt]) (n₂ d (by simp))
      have byte : c.2 = d.2 := by rw [← head₁, ← head₂, h, key]
      have hcd : c = d := Prod.ext key byte
      subst hcd
      congr 1
      refine ih hrest hrest₂ (fun x hx => n₁ x (List.mem_cons_of_mem _ hx))
        (fun x hx => n₂ x (List.mem_cons_of_mem _ hx)) fun a => ?_
      by_cases ha : c.1 = a
      · rw [lookupCell_of_lt (fun x hx => ha ▸ hc x hx), lookupCell_of_lt (fun x hx => ha ▸ hd x hx)]
      · simpa [lookupCell, ha] using h a

/-! ## Bytes -/

@[simp] theorem putByte_size (m : Memory) (a : Nat) (b : Byte) : (m.putByte a b).size = m.size := rfl

/-- Writing an existing byte keeps the canonical form. -/
theorem putByte_wf {m : Memory} {a : Nat} (b : Byte) (h : m.wf) (ha : a < m.size) : (m.putByte a b).wf := by
  obtain ⟨h1, h2, h3, h4⟩ := h
  refine ⟨h1, h2, putCell_pairwise a b h3, fun c hc => ?_⟩
  rcases mem_putCell hc with ⟨rfl, hb⟩ | hc
  · exact ⟨ha, hb⟩
  · exact h4 c hc

theorem byteAt_putByte {m : Memory} (a : Nat) (b : Byte) (k : Nat) (h : m.wf) :
    (m.putByte a b).byteAt k = if k = a then b else m.byteAt k :=
  lookupCell_putCell a b k h.2.2.1

/-- An address where no byte exists reads as unlisted. -/
theorem byteAt_above {m : Memory} {a : Nat} (h : m.wf) (ha : m.size ≤ a) : m.byteAt a = Config.unlistedByte := by
  have : ∀ l : List Host.Cell, (∀ c ∈ l, c.1 < m.size) → lookupCell l a = Config.unlistedByte := by
    intro l hl
    induction l with
    | nil => rfl
    | cons d rest ih =>
      have hd : d.1 ≠ a := by have := hl d (by simp); omega
      simp only [lookupCell, if_neg hd]
      exact ih fun c hc => hl c (List.mem_cons_of_mem _ hc)
  exact this _ fun c hc => (h.2.2.2 c hc).1

/-! ## Words -/

@[simp] theorem putWord_size (m : Memory) (a : Nat) (v : Word) : (m.putWord a v).size = m.size := rfl

theorem putWord_wf {m : Memory} {a : Nat} (v : Word) (h : m.wf) (ha : a + 4 ≤ m.size) : (m.putWord a v).wf :=
  putByte_wf _ (putByte_wf _ (putByte_wf _ (putByte_wf _ h (by omega)) (by simp; omega)) (by simp; omega))
    (by simp; omega)

/-- Every byte after a word is written: the four bytes of the word, and the others as before. -/
theorem byteAt_putWord {m : Memory} {a : Nat} (v : Word) (k : Nat) (h : m.wf) (ha : a + 4 ≤ m.size) :
    (m.putWord a v).byteAt k =
      if k = a + 3 then byteOfWord v 3 else if k = a + 2 then byteOfWord v 2
      else if k = a + 1 then byteOfWord v 1 else if k = a then byteOfWord v 0 else m.byteAt k := by
  have w0 := putByte_wf (a := a) (byteOfWord v 0) h (by omega)
  have w1 := putByte_wf (a := a + 1) (byteOfWord v 1) w0 (by simp; omega)
  have w2 := putByte_wf (a := a + 2) (byteOfWord v 2) w1 (by simp; omega)
  rw [Memory.putWord, byteAt_putByte _ _ _ w2, byteAt_putByte _ _ _ w1, byteAt_putByte _ _ _ w0,
    byteAt_putByte _ _ _ h]

/-- The bytes of a word, put together again, are the word. -/
theorem wordOfBytes_byteOfWord (v : Word) :
    wordOfBytes (byteOfWord v 0) (byteOfWord v 1) (byteOfWord v 2) (byteOfWord v 3) = v := by
  apply BitVec.eq_of_getLsbD_eq
  intro i hi
  change BitVec.getLsbD (w := 8 + 8 + 8 + 8) (_ ++ _ ++ _ ++ _) i = _
  simp only [byteOfWord, BitVec.getLsbD_append, BitVec.getLsbD_extractLsb']
  grind

/-- A word written is the word read. -/
theorem wordAt_putWord {m : Memory} {a : Nat} (v : Word) (h : m.wf) (ha : a + 4 ≤ m.size) :
    (m.putWord a v).wordAt a = v := by
  simp only [Memory.wordAt, byteAt_putWord v _ h ha]
  simp [wordOfBytes_byteOfWord]

/-! ## The checked accessors -/

/-- The check admits exactly the aligned accesses inside memory. -/
theorem wordError_none_iff (m : Memory) (a : Word) :
    m.wordError a = none ↔ a.toNat + 4 ≤ m.size ∧ a.toNat % 4 = 0 := by
  unfold Memory.wordError
  split
  · simp; omega
  · split
    · simp; omega
    · split
      · simp; omega
      · simp; omega

theorem loadWord_ok_iff {m : Memory} {a v : Word} :
    m.loadWord a = .ok v ↔ m.wordError a = none ∧ v = m.wordAt a.toNat := by
  unfold Memory.loadWord
  cases m.wordError a <;> simp [eq_comm]

theorem loadWord_error_iff {m : Memory} {a : Word} {e : MemoryError} :
    m.loadWord a = .error e ↔ m.wordError a = some e := by
  unfold Memory.loadWord
  cases m.wordError a <;> simp

theorem storeWord_ok_iff {m m' : Memory} {a v : Word} :
    m.storeWord a v = .ok m' ↔ m.wordError a = none ∧ m' = m.putWord a.toNat v := by
  unfold Memory.storeWord
  cases m.wordError a <;> simp [eq_comm]

theorem storeWord_error_iff {m : Memory} {a v : Word} {e : MemoryError} :
    m.storeWord a v = .error e ↔ m.wordError a = some e := by
  unfold Memory.storeWord
  cases m.wordError a <;> simp

theorem storeByte_ok_iff {m m' : Memory} {a : Word} {b : Byte} :
    m.storeByte a b = .ok m' ↔ a.toNat < m.size ∧ m' = m.putByte a.toNat b := by
  unfold Memory.storeByte Memory.byteError
  split <;> rename_i h <;> split at h <;> simp_all [eq_comm]

/-- A word store that succeeds keeps the canonical form. -/
theorem storeWord_wf {m m' : Memory} {a v : Word} (h : m.wf) (hs : m.storeWord a v = .ok m') : m'.wf := by
  obtain ⟨he, rfl⟩ := storeWord_ok_iff.1 hs
  exact putWord_wf v h ((wordError_none_iff m a).1 he).1

/-- A byte store that succeeds keeps the canonical form. -/
theorem storeByte_wf {m m' : Memory} {a : Word} {b : Byte} (h : m.wf) (hs : m.storeByte a b = .ok m') : m'.wf := by
  obtain ⟨ha, rfl⟩ := storeByte_ok_iff.1 hs
  exact putByte_wf b h ha

/-- No store changes the size. -/
theorem storeWord_size {m m' : Memory} {a v : Word} (hs : m.storeWord a v = .ok m') : m'.size = m.size := by
  obtain ⟨-, rfl⟩ := storeWord_ok_iff.1 hs
  rfl

/-- A new memory is in canonical form when its size can be addressed. -/
theorem memNew_wf {maxSize size : Nat} {m : Memory} (hmax : maxSize ≤ 2 ^ 32) (h : memNew maxSize size = .ok m) :
    m.wf ∧ m.size = size := by
  unfold memNew at h
  split at h
  · simp at h
  · obtain rfl := Except.ok.inj h
    exact ⟨⟨by simp only; omega, by simp only; omega, List.Pairwise.nil, by simp⟩, rfl⟩

end Sys2Proof.Machine
end

