-- ==== Sys2Proof/Laws/State.lean ====
section
/-! SUPPORT. What each update of the state does to each field and to each register: one lemma each. -/

namespace Sys2Proof.Machine

/-! ## setPc -/

@[simp] theorem setPc_regs (s : State) (t : Word) : (s.setPc t).regs = s.regs := rfl
@[simp] theorem setPc_pc (s : State) (t : Word) : (s.setPc t).pc = t := rfl
@[simp] theorem setPc_mem (s : State) (t : Word) : (s.setPc t).mem = s.mem := rfl
@[simp] theorem setPc_phase (s : State) (t : Word) : (s.setPc t).phase = s.phase := rfl
@[simp] theorem setPc_readReg (s : State) (t : Word) (r : RegIdx) : (s.setPc t).readReg r = s.readReg r := rfl

/-! ## setMem -/

@[simp] theorem setMem_regs (s : State) (m : Memory) : (s.setMem m).regs = s.regs := rfl
@[simp] theorem setMem_pc (s : State) (m : Memory) : (s.setMem m).pc = s.pc := rfl
@[simp] theorem setMem_mem (s : State) (m : Memory) : (s.setMem m).mem = m := rfl
@[simp] theorem setMem_phase (s : State) (m : Memory) : (s.setMem m).phase = s.phase := rfl
@[simp] theorem setMem_readReg (s : State) (m : Memory) (r : RegIdx) : (s.setMem m).readReg r = s.readReg r := rfl

/-! ## markRunning -/

@[simp] theorem markRunning_regs (s : State) : s.markRunning.regs = s.regs := rfl
@[simp] theorem markRunning_pc (s : State) : s.markRunning.pc = s.pc := rfl
@[simp] theorem markRunning_mem (s : State) : s.markRunning.mem = s.mem := rfl
@[simp] theorem markRunning_phase (s : State) : s.markRunning.phase = .running := rfl
@[simp] theorem markRunning_readReg (s : State) (r : RegIdx) : s.markRunning.readReg r = s.readReg r := rfl

/-! ## advance -/

@[simp] theorem advance_regs (s : State) : s.advance.regs = s.regs := rfl
@[simp] theorem advance_pc (s : State) : s.advance.pc = s.pc + 4#32 := rfl
@[simp] theorem advance_mem (s : State) : s.advance.mem = s.mem := rfl
@[simp] theorem advance_phase (s : State) : s.advance.phase = .running := rfl
@[simp] theorem advance_readReg (s : State) (r : RegIdx) : s.advance.readReg r = s.readReg r := rfl

/-! ## Registers -/

@[simp] theorem writeReg_pc (s : State) (r : RegIdx) (v : Word) : (s.writeReg r v).pc = s.pc := by
  unfold State.writeReg; split <;> rfl
@[simp] theorem writeReg_mem (s : State) (r : RegIdx) (v : Word) : (s.writeReg r v).mem = s.mem := by
  unfold State.writeReg; split <;> rfl
@[simp] theorem writeReg_phase (s : State) (r : RegIdx) (v : Word) : (s.writeReg r v).phase = s.phase := by
  unfold State.writeReg; split <;> rfl
@[simp] theorem readReg_zero (s : State) : s.readReg 0#5 = 0x00000000#32 := rfl
@[simp] theorem writeReg_zero (s : State) (v : Word) : s.writeReg 0#5 v = s := rfl

/-- Reading a register after writing one: the value written, unless it is the hard-wired register. -/
theorem readReg_writeReg (s : State) (r q : RegIdx) (v : Word) :
    (s.writeReg r v).readReg q = if q = r then (if r = 0#5 then 0x00000000#32 else v) else s.readReg q := by
  by_cases hr : r = 0#5
  · subst hr
    by_cases hq : q = 0#5 <;> simp [hq]
  · by_cases hq : q = 0#5
    · subst hq
      simp [Ne.symm hr]
    · by_cases hqr : q = r
      · subst hqr
        simp [State.readReg, State.writeReg, hr]
      · have hne : r.toNat ≠ q.toNat := fun h => hqr (BitVec.eq_of_toNat_eq h.symm)
        simp [State.readReg, State.writeReg, hr, hq, hqr, hne]

theorem readReg_writeReg_same (s : State) (r : RegIdx) (v : Word) :
    (s.writeReg r v).readReg r = if r = 0#5 then 0x00000000#32 else v := by
  simp [readReg_writeReg]

theorem readReg_writeReg_other (s : State) {r q : RegIdx} (v : Word) (h : q ≠ r) :
    (s.writeReg r v).readReg q = s.readReg q := by
  simp [readReg_writeReg, h]

/-- No write reaches slot 0 of the register file. -/
@[simp] theorem writeReg_slot_zero (s : State) (r : RegIdx) (v : Word) :
    (s.writeReg r v).regs[0] = s.regs[0] := by
  unfold State.writeReg
  split
  · rfl
  · have hne : r.toNat ≠ 0 := fun h => by
      rename_i hr
      exact hr (BitVec.eq_of_toNat_eq (by simpa using h))
    simp [hne]

/-- Writes to two registers can be made in either order. -/
theorem writeReg_comm (s : State) {r q : RegIdx} (v u : Word) (h : q ≠ r) :
    (s.writeReg r v).writeReg q u = (s.writeReg q u).writeReg r v := by
  unfold State.writeReg
  by_cases hr : r = 0#5 <;> by_cases hq : q = 0#5 <;> simp [hr, hq]
  apply Vector.ext
  intro i hi
  have : q.toNat ≠ r.toNat := fun hh => h (BitVec.eq_of_toNat_eq hh)
  simp only [Vector.getElem_set]
  grind

theorem writeReg_markRunning (s : State) (r : RegIdx) (v : Word) :
    (s.writeReg r v).markRunning = s.markRunning.writeReg r v := by unfold State.writeReg; split <;> rfl

theorem writeReg_setPc (s : State) (r : RegIdx) (v t : Word) :
    (s.writeReg r v).setPc t = (s.setPc t).writeReg r v := by unfold State.writeReg; split <;> rfl

theorem writeReg_setMem (s : State) (r : RegIdx) (v : Word) (m : Memory) :
    (s.writeReg r v).setMem m = (s.setMem m).writeReg r v := by unfold State.writeReg; split <;> rfl

/-! ## A core right after construction -/

@[simp] theorem around_pc (m : Memory) : (State.around m).pc = 0x00000000#32 := rfl
@[simp] theorem around_mem (m : Memory) : (State.around m).mem = m := rfl
@[simp] theorem around_phase (m : Memory) : (State.around m).phase = .idle := rfl
@[simp] theorem around_readReg (m : Memory) (r : RegIdx) : (State.around m).readReg r = 0x00000000#32 := by
  unfold State.readReg State.around
  split <;> simp

end Sys2Proof.Machine
end

