-- ==== Sys2Proof/Laws/Exec.lean ====
section
/-! SUPPORT. Everything that an operation can do: how it ends, what execute can change, and what a cycle is made of. -/

namespace Sys2Proof.Machine

/-! ## How an operation ends -/

@[simp] theorem complete_eq_next (s t : State) : complete s = .next t ↔ t = s.markRunning := by
  simp [complete, eq_comm]

@[simp] theorem raise_ne_next (e : CpuError) (s t : State) : raise e s ≠ .next t := by simp [raise]

@[simp] theorem raise_ne_refused (e : CpuError) (s : State) (r : Refusal) : raise e s ≠ .refused r := by
  simp [raise]

@[simp] theorem complete_ne_fault (s : State) (f : Fault) : complete s ≠ .fault f := by simp [complete]

@[simp] theorem complete_ne_refused (s : State) (r : Refusal) : complete s ≠ .refused r := by simp [complete]

@[simp] theorem raise_eq_fault (e : CpuError) (s : State) (f : Fault) : raise e s = .fault f ↔ f = faultOf e s := by
  simp [raise, eq_comm]

@[simp] theorem faultOf_error (e : CpuError) (s : State) : (faultOf e s).error = e := by cases e <;> rfl

@[simp] theorem faultOf_after (e : CpuError) (s : State) : (faultOf e s).after = s := by cases e <;> rfl

/-- A fault is its error and the state it leaves. -/
theorem faultOf_error_after (f : Fault) : faultOf f.error f.after = f := by cases f <;> rfl

theorem completeWith_eq_next (rd : RegIdx) (v : Word) (s t : State) :
    completeWith rd v s = .next t ↔ t = (s.writeReg rd v).markRunning := by simp [completeWith]

theorem completeJump_eq_next (rd : RegIdx) (target : Word) (s t : State) :
    completeJump rd target s = .next t ↔ t = ((s.writeReg rd (s.pc + 4#32)).setPc target).markRunning := by
  simp [completeJump]

/-- A state after one register write is the state with only that register written. -/
theorem writesOnly_of_write (rd : RegIdx) (v : Word) (s : State) :
    WritesOnly rd v s (s.writeReg rd v).markRunning := by
  refine ⟨?_, fun r hr => ?_, by simp, ⟨by simp, fun a => by simp⟩, rfl⟩
  · simp [Holds, readReg_writeReg]
  · simp [readReg_writeReg, hr]

/-! ## What execute can do -/

/-- LOAD and STORE either complete or raise the error of the check. -/
theorem execLoad_cases (rd rs1 : RegIdx) (imm : Word) (s : State) :
    (s.mem.wordError (effectiveAddress rs1 imm s) = none ∧
      execLoad rd rs1 imm s = completeWith rd (s.mem.wordAt (effectiveAddress rs1 imm s).toNat) s)
    ∨ ∃ e, s.mem.wordError (effectiveAddress rs1 imm s) = some e
        ∧ execLoad rd rs1 imm s = raise (.memory e) s := by
  unfold execLoad Memory.loadWord
  cases h : s.mem.wordError (effectiveAddress rs1 imm s) <;> simp

theorem execStore_cases (rs1 rs2 : RegIdx) (imm : Word) (s : State) :
    (s.mem.wordError (effectiveAddress rs1 imm s) = none ∧
      execStore rs1 rs2 imm s
        = complete (s.setMem (s.mem.putWord (effectiveAddress rs1 imm s).toNat (s.readReg rs2))))
    ∨ ∃ e, s.mem.wordError (effectiveAddress rs1 imm s) = some e
        ∧ execStore rs1 rs2 imm s = raise (.memory e) s := by
  unfold execStore Memory.storeWord
  cases h : s.mem.wordError (effectiveAddress rs1 imm s) <;> simp

theorem execOp_cases (rd rs1 rs2 : RegIdx) (funct7 : Funct7) (s : State) :
    (∃ v, opResult funct7 (s.readReg rs1) (s.readReg rs2) = some v
        ∧ execOp rd rs1 rs2 funct7 s = completeWith rd v s)
    ∨ (opResult funct7 (s.readReg rs1) (s.readReg rs2) = none
        ∧ execOp rd rs1 rs2 funct7 s = raise (.invalidOperation funct7) s) := by
  unfold execOp
  cases h : opResult funct7 (s.readReg rs1) (s.readReg rs2) <;> simp

/-- The five things an execute that returns `Ok` can have done, and which instructions do each. -/
inductive Effect (i : Instr) (s t : State) : Prop where
  /-- One result register, nothing else. -/
  | result (rd : RegIdx) (v : Word) (hd : destination i = some rd) (ht : t = (s.writeReg rd v).markRunning)
  /-- A link and a new pc. -/
  | jump (rd : RegIdx) (target : Word) (hd : destination i = some rd) (hr : redirects i = true)
      (ht : t = ((s.writeReg rd (s.pc + 4#32)).setPc target).markRunning)
  /-- A new pc, no register. -/
  | branch (target : Word) (hd : destination i = none) (hr : redirects i = true)
      (ht : t = (s.setPc target).markRunning)
  /-- A word stored. -/
  | store (a v : Word) (m : Memory) (hi : storesWord i = true) (hm : s.mem.storeWord a v = .ok m)
      (ht : t = (s.setMem m).markRunning)
  /-- Nothing. -/
  | nothing (ht : t = s.markRunning)

/-- Everything an execute that returns `Ok` can do. -/
theorem exec_effect {i : Instr} {s t : State} (h : exec i s = .next t) : Effect i s t := by
  cases i with
  | lui rd imm => exact .result rd _ rfl ((completeWith_eq_next ..).1 h)
  | auipc rd imm => exact .result rd _ rfl ((completeWith_eq_next ..).1 h)
  | jal rd imm => exact .jump rd _ rfl rfl ((completeJump_eq_next ..).1 h)
  | jalr rd rs1 imm => exact .jump rd _ rfl rfl ((completeJump_eq_next ..).1 h)
  | load rd rs1 imm =>
    rcases execLoad_cases rd rs1 imm s with ⟨-, he⟩ | ⟨e, -, he⟩
    · exact .result rd _ rfl ((completeWith_eq_next ..).1 (he.symm.trans h))
    · exact absurd (he.symm.trans h) (raise_ne_next _ _ _)
  | shiftImm rd rs1 shamt arithmetic => exact .result rd _ rfl ((completeWith_eq_next ..).1 h)
  | opImm rd rs1 imm => exact .result rd _ rfl ((completeWith_eq_next ..).1 h)
  | store rs1 rs2 imm =>
    rcases execStore_cases rs1 rs2 imm s with ⟨hn, he⟩ | ⟨e, -, he⟩
    · exact .store _ _ _ rfl (storeWord_ok_iff.2 ⟨hn, rfl⟩) ((complete_eq_next ..).1 (he.symm.trans h))
    · exact absurd (he.symm.trans h) (raise_ne_next _ _ _)
  | branch rs1 rs2 imm =>
    have ht := (complete_eq_next ..).1 h
    by_cases hc : registersEqual rs1 rs2 s = true
    · exact .branch (relativeTarget imm s) rfl rfl (by simpa [hc] using ht)
    · exact .nothing (by simpa [hc] using ht)
  | op rd rs1 rs2 funct7 =>
    rcases execOp_cases rd rs1 rs2 funct7 s with ⟨v, -, he⟩ | ⟨-, he⟩
    · exact .result rd v rfl ((completeWith_eq_next ..).1 (he.symm.trans h))
    · exact absurd (he.symm.trans h) (raise_ne_next _ _ _)
  | mul rd rs1 rs2 => exact .result rd _ rfl ((completeWith_eq_next ..).1 h)
  | div rd rs1 rs2 => exact .result rd _ rfl ((completeWith_eq_next ..).1 h)
  | divu rd rs1 rs2 => exact .result rd _ rfl ((completeWith_eq_next ..).1 h)
  | rem rd rs1 rs2 => exact .result rd _ rfl ((completeWith_eq_next ..).1 h)
  | remu rd rs1 rs2 => exact .result rd _ rfl ((completeWith_eq_next ..).1 h)
  | ecall => exact .nothing ((complete_eq_next ..).1 h)
  | ebreak => exact .nothing ((complete_eq_next ..).1 h)
  | invalidInstruction word => exact absurd h (raise_ne_next _ _ _)
  | unknownOpcode opcode => exact absurd h (raise_ne_next _ _ _)

/-- Execute returns `Ok`, or it raises an error in the state it was given. -/
theorem exec_next_or_raise (i : Instr) (s : State) :
    (∃ t, exec i s = .next t) ∨ ∃ e, exec i s = raise e s ∧ (canRaise i = true ∨ i.isVariant = false) := by
  cases i with
  | load rd rs1 imm =>
    rcases execLoad_cases rd rs1 imm s with ⟨-, he⟩ | ⟨e, -, he⟩
    · exact .inl ⟨_, he⟩
    · exact .inr ⟨_, he, .inl rfl⟩
  | store rs1 rs2 imm =>
    rcases execStore_cases rs1 rs2 imm s with ⟨-, he⟩ | ⟨e, -, he⟩
    · exact .inl ⟨_, he⟩
    · exact .inr ⟨_, he, .inl rfl⟩
  | op rd rs1 rs2 funct7 =>
    rcases execOp_cases rd rs1 rs2 funct7 s with ⟨v, -, he⟩ | ⟨-, he⟩
    · exact .inl ⟨_, he⟩
    · exact .inr ⟨_, he, .inl rfl⟩
  | invalidInstruction word => exact .inr ⟨_, rfl, .inr rfl⟩
  | unknownOpcode opcode => exact .inr ⟨_, rfl, .inr rfl⟩
  | lui | auipc | jal | jalr | shiftImm | opImm | branch | mul | div | divu | rem | remu | ecall | ebreak =>
    exact .inl ⟨_, rfl⟩

/-! ## What a cycle is made of -/

theorem step_of_fetch_error {s : State} {e : MemoryError} (h : s.fetch = .error e) :
    step s = raise (.memory e) s := by simp [step, h]

theorem step_of_decode_error {s : State} {w : Word} {e : DecodeError} (hf : s.fetch = .ok w)
    (hd : decode w = .error e) : step s = raise (.decode e) s := by
  cases e <;> simp [step, hf, hd, DecodeError.row, exec, execInvalidInstruction, execUnknownOpcode]

theorem step_of_decode_ok {s : State} {w : Word} {i : Instr} (hf : s.fetch = .ok w) (hd : decode w = .ok i) :
    step s = exec i s.advance := by simp [step, hf, hd]

/-- The three ways a cycle goes: a fetch error, a decode error, or the execute of the decoded instruction. -/
theorem step_cases (s : State) :
    (∃ e, s.fetch = .error e ∧ step s = raise (.memory e) s)
    ∨ (∃ w e, s.fetch = .ok w ∧ decode w = .error e ∧ step s = raise (.decode e) s)
    ∨ ∃ w i, s.fetch = .ok w ∧ decode w = .ok i ∧ step s = exec i s.advance := by
  cases hf : s.fetch with
  | error e => exact .inl ⟨e, rfl, step_of_fetch_error hf⟩
  | ok w =>
    cases hd : decode w with
    | error e => exact .inr (.inl ⟨w, e, rfl, hd, step_of_decode_error hf hd⟩)
    | ok i => exact .inr (.inr ⟨w, i, rfl, hd, step_of_decode_ok hf hd⟩)

/-- A cycle that goes on executed a decoded instruction. -/
theorem step_next {s t : State} (h : step s = .next t) :
    ∃ w i, s.fetch = .ok w ∧ decode w = .ok i ∧ exec i s.advance = .next t := by
  rcases step_cases s with ⟨e, -, he⟩ | ⟨w, e, -, -, he⟩ | ⟨w, i, hf, hd, he⟩
  · exact absurd (he ▸ h) (raise_ne_next _ _ _)
  · exact absurd (he ▸ h) (raise_ne_next _ _ _)
  · exact ⟨w, i, hf, hd, he ▸ h⟩

end Sys2Proof.Machine
end

