-- ==== Sys2Proof/Laws/HostInterface.lean ====
section
/-! SUPPORT. Everything the host's operations can do to a core. -/

namespace Sys2Proof.Machine

/-- An execute that raises does so in the state it was given. -/
theorem exec_fault_eq {i : Instr} {s : State} {f : Fault} (h : exec i s = .fault f) : f = faultOf f.error s := by
  rcases exec_next_or_raise i s with ⟨t, ht⟩ | ⟨e, he, -⟩
  · rw [ht] at h
    simp at h
  · rw [he, raise_eq_fault] at h
    simp [h]

theorem fetchDecodeAdvance_of_fetch_error {s : State} {e : MemoryError} (h : s.fetch = .error e) :
    fetchDecodeAdvance s = .error (.memory e) := by simp only [fetchDecodeAdvance, h]

theorem fetchDecodeAdvance_of_decode_error {s : State} {w : Word} {e : DecodeError} (hf : s.fetch = .ok w)
    (hd : decode w = .error e) : fetchDecodeAdvance s = .error (.decode e) := by
  simp only [fetchDecodeAdvance, hf, hd]

theorem fetchDecodeAdvance_of_decode_ok {s : State} {w : Word} {i : Instr} (hf : s.fetch = .ok w)
    (hd : decode w = .ok i) : fetchDecodeAdvance s = .ok (i, s.advance) := by
  simp only [fetchDecodeAdvance, hf, hd]

/-- A `step()` that succeeds returned the decoded word and moved the pc. -/
theorem fetchDecodeAdvance_ok {s t : State} {d : Instr} (h : fetchDecodeAdvance s = .ok (d, t)) :
    ∃ w, s.fetch = .ok w ∧ decode w = .ok d ∧ t = s.advance := by
  cases hf : s.fetch with
  | error e => simp [fetchDecodeAdvance_of_fetch_error hf] at h
  | ok w =>
    cases hd : decode w with
    | error e => simp [fetchDecodeAdvance_of_decode_error hf hd] at h
    | ok i =>
      rw [fetchDecodeAdvance_of_decode_ok hf hd] at h
      obtain ⟨rfl, rfl⟩ : i = d ∧ s.advance = t := by simpa using h
      exact ⟨w, rfl, hd, rfl⟩

/-- The states that one operation of the host can lead to. -/
theorem hostOp_state_cases (o : HostOp) (s : State) :
    (hostOp o s).2 = s
    ∨ (∃ m a v, s.mem.storeWord a v = .ok m ∧ (hostOp o s).2 = s.setMem m)
    ∨ (∃ m a v, s.mem.storeByte a v = .ok m ∧ (hostOp o s).2 = s.setMem m)
    ∨ (∃ i v, (hostOp o s).2 = s.writeReg i v)
    ∨ (∃ v, (hostOp o s).2 = s.setPc v)
    ∨ (hostOp o s).2 = s.advance
    ∨ ∃ d t, exec d s = .next t ∧ (hostOp o s).2 = t := by
  cases o <;> simp only [hostOp]
  case loadWord a => cases s.mem.loadWord a <;> simp
  case storeWord a v =>
    cases h : s.mem.storeWord a v with
    | error e => exact .inl rfl
    | ok m => exact .inr (.inl ⟨m, a, v, h, rfl⟩)
  case loadByte a => cases s.mem.loadByte a <;> simp
  case storeByte a v =>
    cases h : s.mem.storeByte a v with
    | error e => exact .inl rfl
    | ok m => exact .inr (.inr (.inl ⟨m, a, v, h, rfl⟩))
  case fetch a => cases s.mem.fetch a <;> simp
  case readReg => exact .inl trivial
  case writeReg i v => exact .inr (.inr (.inr (.inl ⟨i, v, rfl⟩)))
  case step =>
    cases h : fetchDecodeAdvance s with
    | error e => exact .inl rfl
    | ok p =>
      obtain ⟨d, t⟩ := p
      obtain ⟨_, _, _, rfl⟩ := fetchDecodeAdvance_ok h
      simp
  case execute d =>
    cases h : exec d s with
    | next t => exact .inr (.inr (.inr (.inr (.inr (.inr ⟨d, t, h, rfl⟩)))))
    | fault f =>
      left
      rw [exec_fault_eq h]
      simp
    | refused r => exact .inl rfl
  case readPc => exact .inl trivial
  case setPc v => exact .inr (.inr (.inr (.inr (.inl ⟨v, rfl⟩))))

/-! ## Sessions -/

/-- The one move a host does not have: a `step` before its first `set_pc`. -/
theorem move_eq_none_iff (h : Session) (o : HostOp) : h.move o = none ↔ o = .step ∧ h.pcSet = false := by
  unfold Session.move
  split <;> simp_all

/-- Every move a host has is the operation on its core. -/
theorem move_eq_some {h h' : Session} {o : HostOp} {r : HostReply} (hm : h.move o = some (r, h')) :
    r = (hostOp o h.core).1 ∧ h'.core = (hostOp o h.core).2 ∧ h'.pcSet = (h.pcSet || o.setsPc) := by
  unfold Session.move at hm
  split at hm
  · simp at hm
  · simp only [Option.some.injEq, Prod.mk.injEq] at hm
    obtain ⟨rfl, rfl⟩ := hm
    exact ⟨rfl, rfl, rfl⟩

theorem moves_cons {h k : Session} {o : HostOp} {os : List HostOp} (hm : h.moves (o :: os) = some k) :
    ∃ r h', h.move o = some (r, h') ∧ h'.moves os = some k := by
  simp only [Session.moves] at hm
  split at hm
  · rename_i r h' he
    exact ⟨r, h', he, hm⟩
  · simp at hm

end Sys2Proof.Machine
end

