-- ==== Sys2Proof/Laws/Loader.lean ====
section
/-! SUPPORT. What the loader does to memory: consecutive bytes, one segment, all segments. -/

namespace Sys2Proof.Machine

/-! ## Consecutive bytes and the loader -/

@[simp] theorem putBytes_size (m : Memory) (a : Nat) (bs : List Byte) : (m.putBytes a bs).size = m.size := by
  induction bs generalizing m a with
  | nil => rfl
  | cons b bs ih => simp [Memory.putBytes, ih]

theorem putBytes_wf {m : Memory} {a : Nat} {bs : List Byte} (h : m.wf) (ha : a + bs.length ≤ m.size) :
    (m.putBytes a bs).wf := by
  induction bs generalizing m a with
  | nil => exact h
  | cons b bs ih =>
    simp only [List.length_cons] at ha
    exact ih (putByte_wf b h (by omega)) (by rw [putByte_size]; omega)

/-- Every byte after consecutive bytes are written. -/
theorem byteAt_putBytes {m : Memory} {a : Nat} {bs : List Byte} (k : Nat) (h : m.wf) (ha : a + bs.length ≤ m.size) :
    (m.putBytes a bs).byteAt k = if a ≤ k ∧ k < a + bs.length then bs.getD (k - a) 0#8 else m.byteAt k := by
  induction bs generalizing m a with
  | nil => simp [Memory.putBytes]
  | cons b bs ih =>
    simp only [List.length_cons] at ha
    have hw := putByte_wf b h (a := a) (by omega)
    rw [Memory.putBytes, ih hw (by rw [putByte_size]; omega), byteAt_putByte _ _ _ h]
    by_cases hk : k = a
    · subst hk
      simp
    · by_cases hin : a + 1 ≤ k ∧ k < a + 1 + bs.length
      · have : k - a = (k - (a + 1)) + 1 := by omega
        rw [if_pos hin, if_pos (by simp; omega), this, List.getD_cons_succ]
      · rw [if_neg hin, if_neg hk, if_neg (by simp; omega)]

theorem segmentBytes_length {buf : List Byte} {p : ProgramHeader} (hf : p.filesz.toNat ≤ p.memsz.toNat)
    (hb : p.offset.toNat + p.filesz.toNat ≤ buf.length) : (segmentBytes buf p).length = p.memsz.toNat := by
  simp [segmentBytes]; omega

/-- Everything that loading one segment can do. -/
theorem loadSegment_ok {buf : List Byte} {p : ProgramHeader} {m m' : Memory} (h : loadSegment buf p m = .ok m') :
    p.paddr.toNat + p.memsz.toNat ≤ m.size ∧ p.filesz.toNat ≤ p.memsz.toNat
      ∧ p.offset.toNat + p.filesz.toNat ≤ buf.length
      ∧ m' = m.putBytes p.paddr.toNat (segmentBytes buf p) := by
  unfold loadSegment at h
  split at h
  · simp at h
  · split at h
    · simp at h
    · split at h
      · simp at h
      · exact ⟨by omega, by omega, by omega, (Except.ok.inj h).symm⟩

theorem loadSegment_wf {buf : List Byte} {p : ProgramHeader} {m m' : Memory} (hm : m.wf)
    (h : loadSegment buf p m = .ok m') : m'.wf ∧ m'.size = m.size := by
  obtain ⟨h1, h2, h3, rfl⟩ := loadSegment_ok h
  exact ⟨putBytes_wf hm (by rw [segmentBytes_length h2 h3]; exact h1), by simp⟩

/-- Loading the segments keeps the memory's size and canonical form, whether it succeeds or fails. -/
theorem loadSegments_keeps {buf : List Byte} {os : List Nat} {m : Memory} :
    (∀ e m', loadSegments buf os m = .loaded e m' → e = elfEntry buf ∧ m'.size = m.size ∧ (m.wf → m'.wf))
      ∧ ∀ e m', loadSegments buf os m = .failed e m' → m'.size = m.size ∧ (m.wf → m'.wf) := by
  induction os generalizing m with
  | nil =>
    refine ⟨fun e m' h => ?_, by simp [loadSegments]⟩
    injection h with h1 h2
    subst h1 h2
    exact ⟨rfl, rfl, id⟩
  | cons o rest ih =>
    simp only [loadSegments]
    split
    · exact ih
    · split
      · rename_i m1 h1
        have hs : m1.size = m.size := by
          obtain ⟨_, _, _, rfl⟩ := loadSegment_ok h1
          simp
        refine ⟨fun e m' h => ?_, fun e m' h => ?_⟩
        · obtain ⟨a, b, c⟩ := ih.1 e m' h
          exact ⟨a, b.trans hs, fun hm => c (loadSegment_wf hm h1).1⟩
        · obtain ⟨a, b⟩ := ih.2 e m' h
          exact ⟨a.trans hs, fun hm => b (loadSegment_wf hm h1).1⟩
      · refine ⟨by simp, fun e m' h => ?_⟩
        injection h with h1 h2
        subst h2
        exact ⟨rfl, id⟩
      · simp

/-- The four ways a load goes: no file, a wrong format, a failed parse, or its segments. -/
theorem loadElf_cases (parseOk : List Byte → Bool) (file : Option (List Byte)) (m : Memory) :
    (file = none ∧ loadElf parseOk file m = .failed .io m)
    ∨ ∃ buf, file = some buf ∧
      ((formatUnsupported buf = true
          ∧ loadElf parseOk file m = .failed (.unsupportedFormat (buf.getD 4 0#8) (buf.getD 5 0#8)) m)
        ∨ (formatUnsupported buf = false ∧ (structureParses buf && parseOk buf) = false
          ∧ loadElf parseOk file m = .failed .parse m)
        ∨ (formatUnsupported buf = false ∧ (structureParses buf && parseOk buf) = true
          ∧ loadElf parseOk file m = loadSegments buf (programHeaderOffsets buf) m)) := by
  cases file with
  | none => exact .inl ⟨rfl, rfl⟩
  | some buf =>
    refine .inr ⟨buf, rfl, ?_⟩
    cases hf : formatUnsupported buf <;> cases hp : structureParses buf && parseOk buf <;> simp [loadElf, hf, hp]

end Sys2Proof.Machine
end

