-- ==== Sys2Proof/Laws/Operands.lean ====
section
/-! SUPPORT. The integer value of each result of the divider, and the bits of the shifter's and JALR's. -/

namespace Sys2Proof.Machine

theorem toInt_ne_zero {b : Word} (h : b ≠ 0#32) : b.toInt ≠ 0 :=
  fun h' => h (BitVec.eq_of_toInt_eq (by simpa using h'))

/-- Outside the zero-divisor and overflow cases the quotient fits in a word. -/
theorem divResult_toInt {a b : Word} (h : b ≠ 0#32) (hd : divOverflows a b = false) :
    (divResult a b).toInt = Int.tdiv a.toInt b.toInt := by
  have hb0 := toInt_ne_zero h
  simp only [divResult, if_neg h, hd, Bool.false_eq_true, if_false, BitVec.toInt_ofInt]
  have a1 := BitVec.le_toInt a
  have a2 := BitVec.toInt_lt (x := a)
  simp at a1 a2
  have hn : (a.toInt.tdiv b.toInt).natAbs = a.toInt.natAbs / b.toInt.natAbs := Int.natAbs_tdiv ..
  have hle : a.toInt.natAbs / b.toInt.natAbs ≤ a.toInt.natAbs := Nat.div_le_self _ _
  by_cases hq : a.toInt.tdiv b.toInt = 2147483648
  · exfalso
    have hmin : a.toInt = -2147483648 := by omega
    have h1 : b.toInt.natAbs = 1 := by
      by_contra hc
      have : a.toInt.natAbs / b.toInt.natAbs ≤ a.toInt.natAbs / 2 := Nat.div_le_div_left (by omega) (by omega)
      omega
    have hm1 : b.toInt = -1 := by
      rcases Int.natAbs_eq b.toInt with h2 | h2 <;> rw [h1] at h2
      · rw [h2, hmin] at hq
        simp at hq
      · simpa using h2
    have e1 : a = 0x80000000#32 := BitVec.eq_of_toInt_eq (by simp [hmin])
    have e2 : b = 0xFFFFFFFF#32 := BitVec.eq_of_toInt_eq (by simp [hm1])
    simp [divOverflows, e1, e2] at hd
  · rw [Int.bmod_def]
    omega

/-- Outside the zero-divisor and overflow cases the remainder fits in a word. -/
theorem remResult_toInt {a b : Word} (h : b ≠ 0#32) (hd : divOverflows a b = false) :
    (remResult a b).toInt = a.toInt - b.toInt * Int.tdiv a.toInt b.toInt := by
  have hb0 := toInt_ne_zero h
  simp only [remResult, if_neg h, hd, Bool.false_eq_true, if_false, BitVec.toInt_ofInt]
  have hm := Int.tmod_add_mul_tdiv a.toInt b.toInt
  have e : a.toInt - b.toInt * a.toInt.tdiv b.toInt = a.toInt.tmod b.toInt := by omega
  have hn := Int.natAbs_tmod a.toInt b.toInt
  have := Nat.mod_lt a.toInt.natAbs (y := b.toInt.natAbs) (by omega)
  have b1 := BitVec.le_toInt b
  have b2 := BitVec.toInt_lt (x := b)
  simp at b1 b2
  rw [e, Int.bmod_def]
  omega

theorem divuResult_toNat {a b : Word} (h : b ≠ 0#32) : (divuResult a b).toNat = a.toNat / b.toNat := by
  simp only [divuResult, if_neg h, BitVec.toNat_ofNat]
  exact Nat.mod_eq_of_lt (lt_of_le_of_lt (Nat.div_le_self _ _) a.isLt)

theorem remuResult_toNat {a b : Word} (h : b ≠ 0#32) : (remuResult a b).toNat = a.toNat % b.toNat := by
  simp only [remuResult, if_neg h, BitVec.toNat_ofNat]
  exact Nat.mod_eq_of_lt (lt_of_le_of_lt (Nat.mod_le _ _) a.isLt)

/-- JALR's target is the sum with bit 0 cleared. -/
theorem getLsbD_absoluteTarget (rs1 : RegIdx) (imm : Word) (s : State) (k : Nat) :
    (absoluteTarget rs1 imm s).getLsbD k = if k = 0 then false else (s.readReg rs1 + imm).getLsbD k := by
  simp only [absoluteTarget, BitVec.getLsbD_and]
  by_cases hk : k < 32
  · have mask : ∀ j : Fin 32, (0xFFFFFFFE#32).getLsbD j = decide (j ≠ 0) := by decide
    have := mask ⟨k, hk⟩
    simp only at this
    rw [this]
    by_cases h0 : k = 0 <;> simp [h0]
  · rw [BitVec.getLsbD_of_ge (s.readReg rs1 + imm) k (by omega)]
    simp

end Sys2Proof.Machine
end

