-- ==== Sys2Proof/Laws/PerInstr.lean ====
section
/-! SUPPORT. Per instruction: the word it is encoded as carries its opcode and each of its fields. -/

namespace Sys2Proof.Laws.EncodedFields

/-- The word of a well-formed instruction: the opcode and selecting fields of its row of the table, and each operand in
the field it is decoded from. A word of a decode-error class is that class's word. -/
def Statement (i : Instr) : Prop :=
  i.wellFormed = true →
    match i with
    | .lui rd imm => opcodeOf (encode i) = 0x37#7 ∧ rdOf (encode i) = rd ∧ immU (encode i) = imm
    | .auipc rd imm => opcodeOf (encode i) = 0x17#7 ∧ rdOf (encode i) = rd ∧ immU (encode i) = imm
    | .jal rd imm => opcodeOf (encode i) = 0x6F#7 ∧ rdOf (encode i) = rd ∧ immJ (encode i) = imm
    | .jalr rd rs1 imm =>
      opcodeOf (encode i) = 0x67#7 ∧ rdOf (encode i) = rd ∧ rs1Of (encode i) = rs1 ∧ immI (encode i) = imm
    | .load rd rs1 imm =>
      opcodeOf (encode i) = 0x03#7 ∧ rdOf (encode i) = rd ∧ rs1Of (encode i) = rs1 ∧ immI (encode i) = imm
    | .shiftImm rd rs1 shamt arithmetic =>
      opcodeOf (encode i) = 0x13#7 ∧ (funct3Of (encode i) = 1#3 ∨ funct3Of (encode i) = 5#3)
        ∧ rdOf (encode i) = rd ∧ rs1Of (encode i) = rs1 ∧ shamtOf (encode i) = shamt
        ∧ (arithmetic = true ↔ funct3Of (encode i) = 5#3 ∧ funct7Of (encode i) = 0x20#7)
    | .opImm rd rs1 imm =>
      opcodeOf (encode i) = 0x13#7 ∧ funct3Of (encode i) = 0#3
        ∧ rdOf (encode i) = rd ∧ rs1Of (encode i) = rs1 ∧ immI (encode i) = imm
    | .store rs1 rs2 imm =>
      opcodeOf (encode i) = 0x23#7 ∧ rs1Of (encode i) = rs1 ∧ rs2Of (encode i) = rs2 ∧ immS (encode i) = imm
    | .branch rs1 rs2 imm =>
      opcodeOf (encode i) = 0x63#7 ∧ rs1Of (encode i) = rs1 ∧ rs2Of (encode i) = rs2 ∧ immB (encode i) = imm
    | .op rd rs1 rs2 funct7 =>
      opcodeOf (encode i) = 0x33#7 ∧ funct7Of (encode i) = funct7 ∧ funct7 ≠ 0x01#7
        ∧ rdOf (encode i) = rd ∧ rs1Of (encode i) = rs1 ∧ rs2Of (encode i) = rs2
    | .mul rd rs1 rs2 =>
      opcodeOf (encode i) = 0x33#7 ∧ funct7Of (encode i) = 0x01#7 ∧ funct3Of (encode i) = 0#3
        ∧ rdOf (encode i) = rd ∧ rs1Of (encode i) = rs1 ∧ rs2Of (encode i) = rs2
    | .div rd rs1 rs2 =>
      opcodeOf (encode i) = 0x33#7 ∧ funct7Of (encode i) = 0x01#7 ∧ funct3Of (encode i) = 4#3
        ∧ rdOf (encode i) = rd ∧ rs1Of (encode i) = rs1 ∧ rs2Of (encode i) = rs2
    | .divu rd rs1 rs2 =>
      opcodeOf (encode i) = 0x33#7 ∧ funct7Of (encode i) = 0x01#7 ∧ funct3Of (encode i) = 5#3
        ∧ rdOf (encode i) = rd ∧ rs1Of (encode i) = rs1 ∧ rs2Of (encode i) = rs2
    | .rem rd rs1 rs2 =>
      opcodeOf (encode i) = 0x33#7 ∧ funct7Of (encode i) = 0x01#7 ∧ funct3Of (encode i) = 6#3
        ∧ rdOf (encode i) = rd ∧ rs1Of (encode i) = rs1 ∧ rs2Of (encode i) = rs2
    | .remu rd rs1 rs2 =>
      opcodeOf (encode i) = 0x33#7 ∧ funct7Of (encode i) = 0x01#7 ∧ funct3Of (encode i) = 7#3
        ∧ rdOf (encode i) = rd ∧ rs1Of (encode i) = rs1 ∧ rs2Of (encode i) = rs2
    | .ecall => opcodeOf (encode i) = 0x73#7 ∧ funct3Of (encode i) = 0#3 ∧ imm12Of (encode i) = 0#12
    | .ebreak => opcodeOf (encode i) = 0x73#7 ∧ funct3Of (encode i) = 0#3 ∧ imm12Of (encode i) = 1#12
    | .invalidInstruction w => encode i = w
    | .unknownOpcode opcode => opcodeOf (encode i) = opcode

theorem lui (rd : RegIdx) (imm : Word) : Statement (.lui rd imm) := fun h => by
  simp [encode, immU_encodeU rd _ h]

theorem auipc (rd : RegIdx) (imm : Word) : Statement (.auipc rd imm) := fun h => by
  simp [encode, immU_encodeU rd _ h]

theorem jal (rd : RegIdx) (imm : Word) : Statement (.jal rd imm) := fun h => by
  simp [encode, immJ_encodeJ rd _ h]

theorem jalr (rd rs1 : RegIdx) (imm : Word) : Statement (.jalr rd rs1 imm) := fun h => by
  simp [encode, immI_encodeI rs1 _ rd _ h]

theorem load (rd rs1 : RegIdx) (imm : Word) : Statement (.load rd rs1 imm) := fun h => by
  simp [encode, immI_encodeI rs1 _ rd _ h]

theorem shiftImm (rd rs1 : RegIdx) (shamt : Shamt) (arithmetic : Bool) :
    Statement (.shiftImm rd rs1 shamt arithmetic) := fun _ => by
  cases arithmetic <;> simp [encode]

theorem opImm (rd rs1 : RegIdx) (imm : Word) : Statement (.opImm rd rs1 imm) := fun h => by
  simp [encode, immI_encodeI rs1 _ rd _ h]

theorem store (rs1 rs2 : RegIdx) (imm : Word) : Statement (.store rs1 rs2 imm) := fun h => by
  simp [encode, immS_encodeS rs2 rs1 _ _ h]

theorem branch (rs1 rs2 : RegIdx) (imm : Word) : Statement (.branch rs1 rs2 imm) := fun h => by
  simp [encode, immB_encodeB rs2 rs1 _ _ h]

theorem op (rd rs1 rs2 : RegIdx) (funct7 : Funct7) : Statement (.op rd rs1 rs2 funct7) := fun h => by
  have h' : funct7 ≠ 0x01#7 := by simpa [Instr.wellFormed] using h
  simp [encode, h']

theorem mul (rd rs1 rs2 : RegIdx) : Statement (.mul rd rs1 rs2) := fun _ => by simp [encode]

theorem div (rd rs1 rs2 : RegIdx) : Statement (.div rd rs1 rs2) := fun _ => by simp [encode]

theorem divu (rd rs1 rs2 : RegIdx) : Statement (.divu rd rs1 rs2) := fun _ => by simp [encode]

theorem rem (rd rs1 rs2 : RegIdx) : Statement (.rem rd rs1 rs2) := fun _ => by simp [encode]

theorem remu (rd rs1 rs2 : RegIdx) : Statement (.remu rd rs1 rs2) := fun _ => by simp [encode]

theorem ecall : Statement .ecall := fun _ => by decide

theorem ebreak : Statement .ebreak := fun _ => by decide

theorem invalidInstruction (word : Word) : Statement (.invalidInstruction word) := fun _ => rfl

theorem unknownOpcode (opcode : BitVec 7) : Statement (.unknownOpcode opcode) := fun _ => by
  show opcodeOf (opcode.zeroExtend 32) = opcode
  apply BitVec.eq_of_getLsbD_eq
  intro i hi
  simp only [opcodeOf, BitVec.getLsbD_extractLsb', BitVec.getLsbD_setWidth]
  grind

end Sys2Proof.Laws.EncodedFields
end

