-- ==== Sys2Proof/Tests/Slice0.lean ====
section
/-! SUPPORT. Tests: well-formedness, words written out from the spec's encodings, one step per case, and a witness for the hypotheses
of every statement. Expected results are from spec/95_test_vectors.md (named V-... or S...) or worked out by hand from the rule named. -/

namespace Sys2Proof.Tests

open Sys2Proof.Machine

/-! ## Helpers -/

/-- A memory with a word stored in it. -/
def withWord (m : Memory) (a w : Word) : Memory :=
  match m.storeWord a w with
  | .ok m' => m'
  | .error _ => m

/-- A core of a given memory size with the pc at `a`, the word `w` there, and some registers written. -/
def coreAt (size : Nat) (a w : Word) (regs : List (RegIdx × Word)) : State :=
  regs.foldl (fun s p => s.writeReg p.1 p.2) ((constructWith (withWord ⟨size, []⟩ a w)).setPc a)

/-- The usual core of the vectors: 0x400 bytes. -/
def at400 (a w : Word) (regs : List (RegIdx × Word)) : State := coreAt 0x400 a w regs

/-- A core with one more word in memory. -/
def storing (a v : Word) (s : State) : State := s.setMem (withWord s.mem a v)

/-- The next state, if there is one. -/
def nextOf : Host.Outcome State Fault Refusal → Option State
  | .next t => some t
  | _ => none

/-- The fault, if there is one. -/
def faultIn : Host.Outcome State Fault Refusal → Option Fault
  | .fault f => some f
  | _ => none

/-- One register and the pc after one cycle. -/
def regPc (r : RegIdx) (s : State) : Option (Word × Word) := (nextOf (step s)).map (fun t => (t.readReg r, t.pc))

/-- The error of one cycle and the pc it leaves. -/
def errorPc (s : State) : Option (CpuError × Word) := (faultIn (step s)).map (fun f => (f.error, f.after.pc))

/-- The answer of the decoder when it is an instruction. -/
def decoded (w : Word) : Option Instr := (decode w).toOption

/-- The value of an operation that succeeded. -/
def valueOf {ε α : Type} : Except ε α → Option α
  | .ok a => some a
  | .error _ => none

/-- The error of an operation that failed. -/
def errorOf {ε α : Type} : Except ε α → Option ε
  | .ok _ => none
  | .error e => some e

/-- A core whose next word is `addi x2, x0, 5`. -/
def ready : State := at400 0x100#32 0x00500113#32 []

/-! ## Well-formedness: each check refuses an ill-formed term, and admits the ends of its range -/

theorem test_wf_lui_low_bits : (Instr.lui 1#5 0x12345001#32).wellFormed = false := by decide
theorem test_wf_auipc_low_bits : (Instr.auipc 1#5 0x00000800#32).wellFormed = false := by decide
theorem test_wf_lui : (Instr.lui 1#5 0xFFFFF000#32).wellFormed = true := by decide
theorem test_wf_jal_odd : (Instr.jal 1#5 3#32).wellFormed = false := by decide
theorem test_wf_jal_above : (Instr.jal 1#5 1048576#32).wellFormed = false := by decide
theorem test_wf_jal_below : (Instr.jal 1#5 (BitVec.ofInt 32 (-1048578))).wellFormed = false := by decide
theorem test_wf_jal_ends : (Instr.jal 1#5 1048574#32).wellFormed = true
    ∧ (Instr.jal 1#5 (BitVec.ofInt 32 (-1048576))).wellFormed = true := by decide
theorem test_wf_jalr_above : (Instr.jalr 1#5 2#5 2048#32).wellFormed = false := by decide
theorem test_wf_load_below : (Instr.load 1#5 2#5 (BitVec.ofInt 32 (-2049))).wellFormed = false := by decide
theorem test_wf_opImm_above : (Instr.opImm 1#5 2#5 2048#32).wellFormed = false := by decide
theorem test_wf_opImm_ends : (Instr.opImm 1#5 2#5 2047#32).wellFormed = true
    ∧ (Instr.opImm 1#5 2#5 (BitVec.ofInt 32 (-2048))).wellFormed = true := by decide
theorem test_wf_store_above : (Instr.store 1#5 2#5 2048#32).wellFormed = false := by decide
theorem test_wf_branch_odd : (Instr.branch 1#5 2#5 1#32).wellFormed = false := by decide
theorem test_wf_branch_above : (Instr.branch 1#5 2#5 4096#32).wellFormed = false := by decide
theorem test_wf_branch_below : (Instr.branch 1#5 2#5 (BitVec.ofInt 32 (-4098))).wellFormed = false := by decide
theorem test_wf_branch_ends : (Instr.branch 1#5 2#5 4094#32).wellFormed = true
    ∧ (Instr.branch 1#5 2#5 (BitVec.ofInt 32 (-4096))).wellFormed = true := by decide
theorem test_wf_op_of_the_muldiv_group : (Instr.op 1#5 2#5 3#5 0x01#7).wellFormed = false := by decide
theorem test_wf_op_undefined_funct7 : (Instr.op 1#5 2#5 3#5 0x05#7).wellFormed = true := by decide
theorem test_wf_invalid_of_a_legal_word : (Instr.invalidInstruction 0x00000073#32).wellFormed = false := by decide
theorem test_wf_invalid_of_mul : (Instr.invalidInstruction 0x022081B3#32).wellFormed = false := by decide
theorem test_wf_invalid_of_mret : (Instr.invalidInstruction 0x30200073#32).wellFormed = true := by decide
theorem test_wf_unknown_of_a_known_opcode : (Instr.unknownOpcode 0x33#7).wellFormed = false := by decide
theorem test_wf_unknown_fence : (Instr.unknownOpcode 0x0F#7).wellFormed = true := by decide

/-! ## Decoding: words written out field by field from R102 and R110 to R122 -/

/-- U format, V-DEC-1: lui x5, 0x12345. -/
theorem test_decode_lui :
    decoded (0b00010010001101000101#20 ++ 0b00101#5 ++ 0b0110111#7) = some (.lui 5#5 0x12345000#32) := by decide
/-- U format, V-DEC-3: auipc x3, 0xFFFFF. -/
theorem test_decode_auipc :
    decoded (0b11111111111111111111#20 ++ 0b00011#5 ++ 0b0010111#7) = some (.auipc 3#5 0xFFFFF000#32) := by decide
/-- J format, V-DEC-4: jal x1, 0x100; the groups are imm[20], imm[10:1], imm[11], imm[19:12]. -/
theorem test_decode_jal :
    decoded (0#1 ++ 0b0010000000#10 ++ 0#1 ++ 0b00000000#8 ++ 0b00001#5 ++ 0b1101111#7)
      = some (.jal 1#5 256#32) := by decide
/-- J format, by hand from D10: imm[20], imm[11] and imm[12] set, hence -1048576 + 2048 + 4096. -/
theorem test_decode_jal_groups :
    decoded (1#1 ++ 0b0000000000#10 ++ 1#1 ++ 0b00000001#8 ++ 0b00000#5 ++ 0b1101111#7)
      = some (.jal 0#5 (BitVec.ofInt 32 (-1042432))) := by decide
/-- V-DEC-8 and V-DEC-9, the ends of the J range. -/
theorem test_decode_jal_ends :
    decoded 0x8000006F#32 = some (.jal 0#5 (BitVec.ofInt 32 (-1048576)))
      ∧ decoded 0x7FFFF06F#32 = some (.jal 0#5 1048574#32) := by decide
/-- I format, V-DEC-12: jalr with funct3 7. -/
theorem test_decode_jalr :
    decoded (0b111111111111#12 ++ 0b00101#5 ++ 0b111#3 ++ 0b00001#5 ++ 0b1100111#7)
      = some (.jalr 1#5 5#5 (BitVec.ofInt 32 (-1))) := by decide
/-- I format, V-DEC-14: lw x7, -4(x5). -/
theorem test_decode_load :
    decoded (0b111111111100#12 ++ 0b00101#5 ++ 0b010#3 ++ 0b00111#5 ++ 0b0000011#7)
      = some (.load 7#5 5#5 (BitVec.ofInt 32 (-4))) := by decide
/-- R format, V-DEC-27: srai x3, x1, 4. -/
theorem test_decode_srai :
    decoded (0b0100000#7 ++ 0b00100#5 ++ 0b00001#5 ++ 0b101#3 ++ 0b00011#5 ++ 0b0010011#7)
      = some (.shiftImm 3#5 1#5 4#5 true) := by decide
/-- V-DEC-25, V-DEC-26 and V-DEC-28: the flag is not set. -/
theorem test_decode_left_shifts :
    decoded 0x40409193#32 = some (.shiftImm 3#5 1#5 4#5 false)
      ∧ decoded 0x0040D193#32 = some (.shiftImm 3#5 1#5 4#5 false)
      ∧ decoded 0x4240D193#32 = some (.shiftImm 3#5 1#5 4#5 false) := by decide
/-- I format, V-DEC-20: addi x1, x0, -2048. -/
theorem test_decode_opImm :
    decoded (0b100000000000#12 ++ 0b00000#5 ++ 0b000#3 ++ 0b00001#5 ++ 0b0010011#7)
      = some (.opImm 1#5 0#5 (BitVec.ofInt 32 (-2048))) := by decide
/-- S format, V-DEC-32: sw x6, 2047(x5); imm[11:5] and imm[4:0]. -/
theorem test_decode_store :
    decoded (0b0111111#7 ++ 0b00110#5 ++ 0b00101#5 ++ 0b010#3 ++ 0b11111#5 ++ 0b0100011#7)
      = some (.store 5#5 6#5 2047#32) := by decide
/-- B format, V-DEC-34: beq x1, x2, 8; the groups are imm[12], imm[10:5], imm[4:1], imm[11]. -/
theorem test_decode_branch :
    decoded (0#1 ++ 0b000000#6 ++ 0b00010#5 ++ 0b00001#5 ++ 0b000#3 ++ 0b0100#4 ++ 0#1 ++ 0b1100011#7)
      = some (.branch 1#5 2#5 8#32) := by decide
/-- B format, by hand from D10: only imm[11] set. -/
theorem test_decode_branch_groups :
    decoded (0#1 ++ 0b000000#6 ++ 0b00010#5 ++ 0b00001#5 ++ 0b110#3 ++ 0b0000#4 ++ 1#1 ++ 0b1100011#7)
      = some (.branch 1#5 2#5 2048#32) := by decide
/-- V-DEC-36 and V-DEC-37, the ends of the B range. -/
theorem test_decode_branch_ends :
    decoded 0x80000063#32 = some (.branch 0#5 0#5 (BitVec.ofInt 32 (-4096)))
      ∧ decoded 0x7E000FE3#32 = some (.branch 0#5 0#5 4094#32) := by decide
/-- R format, V-DEC-40: sub x4, x1, x2. -/
theorem test_decode_op :
    decoded (0b0100000#7 ++ 0b00010#5 ++ 0b00001#5 ++ 0b000#3 ++ 0b00100#5 ++ 0b0110011#7)
      = some (.op 4#5 1#5 2#5 0x20#7) := by decide
/-- V-DEC-43 and V-DEC-45: opcode 0x3B, and a funct7 that only execute rejects. -/
theorem test_decode_op_others :
    decoded 0x002081BB#32 = some (.op 3#5 1#5 2#5 0x00#7)
      ∧ decoded 0xFE2081B3#32 = some (.op 3#5 1#5 2#5 0x7F#7) := by decide
/-- R format, V-DEC-46: mul x3, x1, x2. -/
theorem test_decode_mul :
    decoded (0b0000001#7 ++ 0b00010#5 ++ 0b00001#5 ++ 0b000#3 ++ 0b00011#5 ++ 0b0110011#7)
      = some (.mul 3#5 1#5 2#5) := by decide
/-- R format, V-DEC-54: opcode 0x3B. -/
theorem test_decode_div :
    decoded (0b0000001#7 ++ 0b00010#5 ++ 0b00001#5 ++ 0b100#3 ++ 0b00011#5 ++ 0b0111011#7)
      = some (.div 3#5 1#5 2#5) := by decide
/-- R format, V-DEC-51. -/
theorem test_decode_divu :
    decoded (0b0000001#7 ++ 0b00010#5 ++ 0b00001#5 ++ 0b101#3 ++ 0b00011#5 ++ 0b0110011#7)
      = some (.divu 3#5 1#5 2#5) := by decide
/-- R format, V-DEC-52. -/
theorem test_decode_rem :
    decoded (0b0000001#7 ++ 0b00010#5 ++ 0b00001#5 ++ 0b110#3 ++ 0b00011#5 ++ 0b0110011#7)
      = some (.rem 3#5 1#5 2#5) := by decide
/-- R format, V-DEC-53. -/
theorem test_decode_remu :
    decoded (0b0000001#7 ++ 0b00010#5 ++ 0b00001#5 ++ 0b111#3 ++ 0b00011#5 ++ 0b0110011#7)
      = some (.remu 3#5 1#5 2#5) := by decide
/-- V-DEC-57: ECALL with rd = 1. -/
theorem test_decode_ecall :
    decoded (0b000000000000#12 ++ 0b00000#5 ++ 0b000#3 ++ 0b00001#5 ++ 0b1110011#7) = some .ecall := by decide
/-- V-DEC-58: EBREAK with rs1 = 5. -/
theorem test_decode_ebreak :
    decoded (0b000000000001#12 ++ 0b00101#5 ++ 0b000#3 ++ 0b00000#5 ++ 0b1110011#7) = some .ebreak := by decide
/-- V-DEC-47 (mulh) and V-DEC-59 to V-DEC-63: the class InvalidInstruction. -/
theorem test_decode_invalid :
    errorOf (decode (0b0000001#7 ++ 0b00010#5 ++ 0b00001#5 ++ 0b001#3 ++ 0b00011#5 ++ 0b0110011#7))
        = some (.invalidInstruction 0x022091B3#32)
      ∧ errorOf (decode 0x00200073#32) = some (.invalidInstruction 0x00200073#32)
      ∧ errorOf (decode 0xC00020F3#32) = some (.invalidInstruction 0xC00020F3#32)
      ∧ errorOf (decode 0x00004073#32) = some (.invalidInstruction 0x00004073#32) := by decide
/-- V-DEC-64 to V-DEC-66: the class UnknownOpcode. -/
theorem test_decode_unknown :
    errorOf (decode 0x00000000#32) = some (.unknownOpcode 0x00#7)
      ∧ errorOf (decode 0xFFFFFFFF#32) = some (.unknownOpcode 0x7F#7)
      ∧ errorOf (decode (0b00001111111100000000#20 ++ 0b00000#5 ++ 0b0001111#7))
        = some (.unknownOpcode 0x0F#7) := by decide

/-- The host's reading of a table word, V-DEC-17 and both error classes. -/
theorem test_decodeTableWord :
    decodeTableWord 32 0x00500113 = some (.opImm 2#5 0#5 5#32)
      ∧ decodeTableWord 32 0x022091B3 = some (.invalidInstruction 0x022091B3#32)
      ∧ decodeTableWord 32 0 = some (.unknownOpcode 0#7) := by decide
/-- Little-endian (R70): the first byte in memory is the least-significant one. -/
theorem test_decodeBytes_order :
    decodeBytes [0x13#8, 0x01#8, 0x50#8, 0x00#8, 0xAA#8] = some (.opImm 2#5 0#5 5#32, [0xAA#8])
      ∧ decodeBytes [0x13#8, 0x01#8, 0x50#8] = none := by decide

/-! ## Encoding: the words of V-DEC -/

theorem test_encode_formats :
    encode (.lui 5#5 0x12345000#32) = 0x123452B7#32
      ∧ encode (.jal 1#5 256#32) = 0x100000EF#32
      ∧ encode (.jalr 1#5 5#5 3#32) = 0x003280E7#32
      ∧ encode (.load 7#5 5#5 4#32) = 0x0042A383#32
      ∧ encode (.store 5#5 6#5 (BitVec.ofInt 32 (-2048))) = 0x8062A023#32
      ∧ encode (.branch 0#5 0#5 4094#32) = 0x7E000FE3#32 := by decide
theorem test_encode_alu :
    encode (.shiftImm 3#5 1#5 31#5 false) = 0x01F09193#32
      ∧ encode (.shiftImm 3#5 1#5 4#5 true) = 0x4040D193#32
      ∧ encode (.op 4#5 1#5 2#5 0x20#7) = 0x40208233#32
      ∧ encode (.remu 3#5 1#5 2#5) = 0x0220F1B3#32
      ∧ encode .ebreak = 0x00100073#32 := by decide

/-! ## One cycle of each instruction -/

/-- V-U-1. -/
theorem test_lui : regPc 5#5 (at400 0x100#32 0x123452B7#32 []) = some (0x12345000#32, 0x104#32) := by decide
/-- V-U-3: x0 stays 0. -/
theorem test_lui_x0 : regPc 0#5 (at400 0x100#32 0x12345037#32 []) = some (0#32, 0x104#32) := by decide
/-- V-U-4: relative to P. -/
theorem test_auipc : regPc 9#5 (at400 0x100#32 0x00001497#32 []) = some (0x1104#32, 0x104#32) := by decide
/-- V-U-5: wraps. -/
theorem test_auipc_wraps : regPc 3#5 (at400 0x100#32 0xFFFFF197#32 []) = some (0xFFFFF104#32, 0x104#32) := by decide
/-- V-J-1. -/
theorem test_jal : regPc 1#5 (at400 0x200#32 0x100000EF#32 []) = some (0x208#32, 0x304#32) := by decide
/-- V-J-3: the target wraps. -/
theorem test_jal_wraps : regPc 5#5 (at400 0x100#32 0xEF9FF2EF#32 []) = some (0x108#32, 0xFFFFFFFC#32) := by decide
/-- V-J-7: rd = rs1, the target from the old value. -/
theorem test_jalr_same_register :
    regPc 5#5 (at400 0x100#32 0x000282E7#32 [(5#5, 0x80#32)]) = some (0x108#32, 0x80#32) := by decide
/-- V-J-8: bit 0 cleared, bit 1 kept. -/
theorem test_jalr_bit1 : regPc 1#5 (at400 0x100#32 0xFFF000E7#32 []) = some (0x108#32, 0xFFFFFFFE#32) := by decide
/-- V-OPI-3: wraps. -/
theorem test_opImm_wraps : regPc 1#5 (at400 0x100#32 0x00108093#32 [(1#5, 0xFFFFFFFF#32)]) = some (0#32, 0x104#32) := by
  decide
/-- V-OPI-6: XORI is an add. -/
theorem test_opImm_xori : regPc 3#5 (at400 0x100#32 0xFFF0C193#32 [(1#5, 10#32)]) = some (9#32, 0x104#32) := by decide
/-- V-SH-1. -/
theorem test_srai : regPc 3#5 (at400 0x100#32 0x4040D193#32 [(1#5, 0x80000000#32)]) = some (0xF8000000#32, 0x104#32) := by
  decide
/-- V-SH-9: SRLI is a left shift. -/
theorem test_srli : regPc 3#5 (at400 0x100#32 0x0040D193#32 [(1#5, 0x12345678#32)]) = some (0x23456780#32, 0x104#32) := by
  decide
/-- V-LS-9: LB reads a whole word, little-endian. -/
theorem test_load :
    regPc 9#5 (storing 0x84#32 0xDEADBEEF#32 (at400 0x100#32 0x00428483#32 [(5#5, 0x80#32)]))
      = some (0xDEADBEEF#32, 0x104#32) := by decide
/-- V-LS-11: rd = 0 still checks, and the pc is past the word. -/
theorem test_load_x0_misaligned :
    errorPc (at400 0x100#32 0x0022A003#32 [(5#5, 0x80#32)])
      = some (.memory (.unalignedAccess 0x82#32 4), 0x104#32) := by decide
/-- V-LS-16: SB writes a whole word, little-endian. -/
theorem test_store :
    (nextOf (step (at400 0x100#32 0x00628023#32 [(5#5, 0x80#32), (6#5, 0xAABBCCDD#32)]))).map
        (fun t => [t.mem.byteAt 0x80, t.mem.byteAt 0x81, t.mem.byteAt 0x82, t.mem.byteAt 0x83, t.mem.byteAt 0x84])
      = some [0xDD#8, 0xCC#8, 0xBB#8, 0xAA#8, 0x00#8] := by decide
/-- V-LS-15: nothing is written. -/
theorem test_store_out_of_bounds :
    (faultIn (step (at400 0x100#32 0x0062A023#32 [(5#5, 0x400#32), (6#5, 1#32)]))).map (fun f => (f.error, f.after.mem))
      = some (.memory (.outOfBounds 0x400#32 0x400), withWord ⟨0x400, []⟩ 0x100#32 0x0062A023#32) := by decide
/-- V-BR-1. -/
theorem test_branch_taken :
    regPc 0#5 (at400 0x10#32 0x00208463#32 [(1#5, 7#32), (2#5, 7#32)]) = some (0#32, 0x1C#32) := by decide
/-- V-BR-4: BNE is not taken when unequal. -/
theorem test_branch_bne :
    regPc 0#5 (at400 0x10#32 0x00209463#32 [(1#5, 7#32), (2#5, 8#32)]) = some (0#32, 0x14#32) := by decide
/-- V-OP-6: SRA is a subtract. -/
theorem test_op_sra :
    regPc 3#5 (at400 0x100#32 0x4020D1B3#32 [(1#5, 0x80#32), (2#5, 4#32)]) = some (0x7C#32, 0x104#32) := by decide
/-- V-OP-9: an undefined funct7 raises with rd = 0 too, the pc past the word. -/
theorem test_op_invalid :
    errorPc (at400 0x100#32 0x0A208033#32 []) = some (.invalidOperation 0x05#7, 0x104#32) := by decide
/-- V-M-1. -/
theorem test_mul :
    regPc 3#5 (at400 0x100#32 0x022081B3#32 [(1#5, 7#32), (2#5, 0xFFFFFFFE#32)]) = some (0xFFFFFFF2#32, 0x104#32) := by
  decide
/-- V-M-2: truncated toward zero. -/
theorem test_div :
    regPc 3#5 (at400 0x100#32 0x0220C1B3#32 [(1#5, 0xFFFFFFF9#32), (2#5, 2#32)]) = some (0xFFFFFFFD#32, 0x104#32) := by
  decide
/-- V-M-4: the overflow case. -/
theorem test_div_overflow :
    regPc 3#5 (at400 0x100#32 0x0220C1B3#32 [(1#5, 0x80000000#32), (2#5, 0xFFFFFFFF#32)])
      = some (0x80000000#32, 0x104#32) := by decide
/-- V-M-5: a zero divisor. -/
theorem test_divu_zero :
    regPc 3#5 (at400 0x100#32 0x0200D1B3#32 [(1#5, 0x80000000#32)]) = some (0xFFFFFFFF#32, 0x104#32) := by decide
/-- By hand from R214: 0xFFFFFFF9 / 2, unsigned. -/
theorem test_divu :
    regPc 3#5 (at400 0x100#32 0x0220D1B3#32 [(1#5, 0xFFFFFFF9#32), (2#5, 2#32)]) = some (0x7FFFFFFC#32, 0x104#32) := by
  decide
/-- V-M-6: the sign of the dividend. -/
theorem test_rem :
    regPc 3#5 (at400 0x100#32 0x0220E1B3#32 [(1#5, 0xFFFFFFF9#32), (2#5, 2#32)]) = some (0xFFFFFFFF#32, 0x104#32) := by
  decide
/-- V-M-7: a zero divisor gives the dividend. -/
theorem test_rem_zero :
    regPc 3#5 (at400 0x100#32 0x0200E1B3#32 [(1#5, 0xFFFFFFF9#32)]) = some (0xFFFFFFF9#32, 0x104#32) := by decide
/-- V-M-9. -/
theorem test_remu_zero :
    regPc 3#5 (at400 0x100#32 0x0200F1B3#32 [(1#5, 0x80000000#32)]) = some (0x80000000#32, 0x104#32) := by decide
/-- By hand from R216: 0xFFFFFFF9 modulo 16. -/
theorem test_remu :
    regPc 3#5 (at400 0x100#32 0x0220F1B3#32 [(1#5, 0xFFFFFFF9#32), (2#5, 16#32)]) = some (9#32, 0x104#32) := by decide
/-- V-SYS-1: nothing changes but the pc (and the indicator of R47). -/
theorem test_ecall :
    nextOf (step (at400 0x24#32 0x00000073#32 [])) = some ((at400 0x24#32 0x00000073#32 []).setPc 0x28#32).markRunning := by
  decide
/-- V-SYS-2. -/
theorem test_ebreak : regPc 1#5 (at400 0x18#32 0x00100073#32 [(1#5, 5#32)]) = some (5#32, 0x1C#32) := by decide
/-- V-M-10 (mulh): the decode error, the whole state as before. -/
theorem test_invalid_instruction :
    faultIn (step (at400 0x100#32 0x022091B3#32 [(1#5, 3#32)]))
      = some (.decode (.invalidInstruction 0x022091B3#32) (at400 0x100#32 0x022091B3#32 [(1#5, 3#32)])) := by decide
/-- V-CYC-4 (fence). -/
theorem test_unknown_opcode :
    faultIn (step (at400 0x100#32 0x0FF0000F#32 []))
      = some (.decode (.unknownOpcode 0x0F#7) (at400 0x100#32 0x0FF0000F#32 [])) := by decide

/-! ## Cycle, host operations, memory -/

/-- V-CYC-1 to V-CYC-3. -/
theorem test_fetch_errors :
    errorPc ((constructWith ⟨0x400, []⟩).setPc 0x102#32) = some (.memory (.unalignedAccess 0x102#32 4), 0x102#32)
      ∧ errorPc ((constructWith ⟨0x400, []⟩).setPc 0x400#32) = some (.memory (.outOfBounds 0x400#32 0x400), 0x400#32)
      ∧ errorPc ((constructWith ⟨0x400, []⟩).setPc 0xFFFFFFFC#32)
        = some (.memory (.outOfBounds 0xFFFFFFFC#32 0x400), 0xFFFFFFFC#32) := by decide
/-- V-CYC-7: `step` alone returns the instruction and does not execute it. -/
theorem test_step_only :
    (hostOp .step (at400 0x100#32 0x00500113#32 [])).1 = .instr (.opImm 2#5 0#5 5#32)
      ∧ (hostOp .step (at400 0x100#32 0x00500113#32 [])).2.pc = 0x104#32
      ∧ (hostOp .step (at400 0x100#32 0x00500113#32 [])).2.readReg 2#5 = 0#32 := by decide
/-- V-CYC-8: `execute` alone, P is whatever the pc holds. -/
theorem test_execute_only :
    (hostOp (.execute (.auipc 1#5 0x1000#32)) (at400 0x200#32 0#32 [])).2.readReg 1#5 = 0x1200#32 := by decide
/-- V-CYC-9: with 2^32 bytes of memory the pc wraps from the last word. -/
theorem test_pc_wraps : regPc 0#5 (coreAt (2 ^ 32) 0xFFFFFFFC#32 0x00000013#32 []) = some (0#32, 0#32) := by decide
/-- S5. -/
theorem test_write_reg_zero :
    (hostOp (.readReg 0#5) (hostOp (.writeReg 0#5 0xFFFFFFFF#32) State.reset).2).1 = .word 0#32 := by decide
/-- R292: no `step` before `set_pc`; after it, V-CYC-7 as a session. -/
theorem test_session_step :
    (Session.fresh ready).moves [.readPc, .step] = none
      ∧ ((Session.fresh ready).moves [.setPc 0x100#32, .step]).map (fun h => h.core.pc) = some 0x104#32 := by decide
/-- V-MEM-2 and V-MEM-3. -/
theorem test_bytes_of_a_word :
    valueOf ((withWord ⟨0x400, []⟩ 0x80#32 0xDEADBEEF#32).loadByte 0x80#32) = some 0xEF#8
      ∧ valueOf ((withWord ⟨0x400, []⟩ 0x80#32 0xDEADBEEF#32).loadByte 0x83#32) = some 0xDE#8
      ∧ (valueOf ((withWord ⟨0x400, []⟩ 0x80#32 0xDEADBEEF#32).storeByte 0x81#32 0x00#8)).bind
          (fun m => valueOf (m.loadWord 0x80#32)) = some 0xDEAD00EF#32 := by decide
/-- V-MEM-4 to V-MEM-9 and V-MEM-13: the order of the check. -/
theorem test_word_check_order :
    (Memory.mk 0x400 []).wordError 0x3FC#32 = none
      ∧ (Memory.mk 0x400 []).wordError 0x400#32 = some (.outOfBounds 0x400#32 0x400)
      ∧ (Memory.mk 0x400 []).wordError 0x3FE#32 = some (.unalignedAccess 0x3FE#32 4)
      ∧ (Memory.mk 0x400 []).wordError 0x401#32 = some (.outOfBounds 0x401#32 0x400)
      ∧ (Memory.mk 0x3FE []).wordError 0x3FC#32 = some (.outOfBounds 0x3FC#32 0x3FE)
      ∧ (Memory.mk 0x3FE []).wordError 0x3FD#32 = some (.unalignedAccess 0x3FD#32 4)
      ∧ (Memory.mk 0x400 []).wordError 0xFFFFFFFC#32 = some (.outOfBounds 0xFFFFFFFC#32 0x400) := by decide
/-- V-MEM-11 and V-MEM-14: byte accesses check bounds only. -/
theorem test_byte_check :
    errorOf ((Memory.mk 0x3FE []).storeByte 0x3FE#32 1#8) = some (.outOfBounds 0x3FE#32 0x3FE)
      ∧ valueOf ((Memory.mk 0x3FE []).loadByte 0x3FD#32) = some 0#8
      ∧ valueOf ((Memory.mk 1 []).loadByte 0#32) = some 0#8
      ∧ errorOf ((Memory.mk 1 []).loadWord 0#32) = some (.outOfBounds 0#32 1) := by decide
/-- Storing zeros over a word empties the list of cells again: one form per content. -/
theorem test_zeros_are_unlisted :
    withWord (withWord ⟨0x400, []⟩ 0x80#32 0xDEADBEEF#32) 0x80#32 0#32 = ⟨0x400, []⟩ := by decide

/-! ## What the host asks: a table word as the first instruction after reset -/

theorem test_withFetchWord :
    (nextOf (step (State.reset.withFetchWord 32 0x00500113))).map (fun t => (t.readReg 2#5, t.pc))
      = some (5#32, 4#32) := by decide
theorem test_withFetchWord_error :
    (faultIn (step (State.reset.withFetchWord 32 0x30200073))).map (fun f => f.error)
      = some (.decode (.invalidInstruction 0x30200073#32)) := by decide

/-! ## Loader -/

/-- Two bytes, the low one first (R284). -/
def half (v : BitVec 16) : List Byte := [v.extractLsb' 0 8, v.extractLsb' 8 8]

/-- Four bytes, the lowest first. -/
def word (v : Word) : List Byte := [byteOfWord v 0, byteOfWord v 1, byteOfWord v 2, byteOfWord v 3]

/-- A 52-byte ELF header by R284: class and encoding, entry, the table right after it with `n` headers. -/
def elfHeader (cls enc : Byte) (entry : Word) (n : BitVec 16) : List Byte :=
  [0x7F#8, 0x45#8, 0x4C#8, 0x46#8, cls, enc, 1#8, 0#8, 0#8, 0#8, 0#8, 0#8, 0#8, 0#8, 0#8, 0#8]
    ++ half 2#16 ++ half 0xF3#16 ++ word 1#32 ++ word entry ++ word 52#32 ++ word 0#32 ++ word 0#32
    ++ half 52#16 ++ half 32#16 ++ half n ++ half 0#16 ++ half 0#16 ++ half 0#16

/-- A 32-byte program header by R284. -/
def segment (type offset paddr filesz memsz : Word) : List Byte :=
  word type ++ word offset ++ word 0#32 ++ word paddr ++ word filesz ++ word memsz ++ word 7#32 ++ word 4#32

/-- V-ELF-1: one segment of four bytes, memory size 8, at address 10. -/
def elf1 : List Byte :=
  elfHeader 1#8 1#8 0x10#32 1#16 ++ segment 1#32 84#32 10#32 4#32 8#32 ++ [0x11#8, 0x22#8, 0x33#8, 0x44#8]

/-- V-ELF-8: a segment that fits, then one that does not. -/
def elf8 : List Byte :=
  elfHeader 1#8 1#8 0#32 2#16 ++ segment 1#32 116#32 0#32 4#32 4#32 ++ segment 1#32 116#32 0x7C#32 0#32 8#32
    ++ [0x11#8, 0x22#8, 0x33#8, 0x44#8]

/-- V-ELF-2: the file bytes are copied and the rest zero-filled over what was there. -/
theorem test_elf_load :
    loadElf (fun _ => true) (some elf1) ⟨128, [(14, 0xFF#8), (17, 0xFF#8), (18, 0xFF#8)]⟩
      = .loaded 0x10#32 ⟨128, [(10, 0x11#8), (11, 0x22#8), (12, 0x33#8), (13, 0x44#8), (18, 0xFF#8)]⟩ := by decide
set_option maxRecDepth 4096 in
/-- V-ELF-8: the first segment's bytes remain. -/
theorem test_elf_second_out_of_bounds :
    loadElf (fun _ => true) (some elf8) ⟨128, []⟩
      = .failed (.segmentOutOfBounds 0x7C#32 8#32) ⟨128, [(0, 0x11#8), (1, 0x22#8), (2, 0x33#8), (3, 0x44#8)]⟩ := by
  decide
/-- V-ELF-3, V-ELF-4 and V-ELF-11. -/
theorem test_elf_rejected :
    loadElf (fun _ => true) (some (elfHeader 2#8 1#8 0#32 0#16)) ⟨128, []⟩
        = .failed (.unsupportedFormat 2#8 1#8) ⟨128, []⟩
      ∧ loadElf (fun _ => true) (some (elfHeader 1#8 2#8 0#32 0#16)) ⟨128, []⟩
        = .failed (.unsupportedFormat 1#8 2#8) ⟨128, []⟩
      ∧ loadElf (fun _ => true) (some [0x7F#8, 0x45#8, 0x4C#8]) ⟨128, []⟩ = .failed .parse ⟨128, []⟩ := by decide
/-- A table of one 4-byte entry that ends the file: the table is inside, its 32-byte header is not. -/
def elfShort : List Byte :=
  (elfHeader 1#8 1#8 0#32 1#16).take 42 ++ half 4#16 ++ (elfHeader 1#8 1#8 0#32 1#16).drop 44 ++ word 1#32

/-- By C8 a malformed file ends in a typed error: Parse (log 26). -/
theorem test_elf_header_past_end :
    loadElf (fun _ => true) (some elfShort) ⟨128, []⟩ = .failed .parse ⟨128, []⟩ := by decide
/-- V-ELF-10: a header that is no PT_LOAD is passed over; V-ELF-13: no outcome. -/
theorem test_elf_other_headers :
    loadElf (fun _ => true) (some (elfHeader 1#8 1#8 0#32 1#16 ++ segment 4#32 0#32 0x1000#32 0#32 8#32)) ⟨128, []⟩
        = .loaded 0#32 ⟨128, []⟩
      ∧ loadElf (fun _ => true) (some (elfHeader 1#8 1#8 0#32 1#16 ++ segment 1#32 0#32 0#32 8#32 4#32)) ⟨128, []⟩
        = .refused .fileSizeAboveMemorySize := by decide

/-! ## Witnesses: for every statement with hypotheses, states and operands that meet them, clause by clause -/

theorem next_of {o : Host.Outcome State Fault Refusal} (h : (nextOf o).isSome = true) : ∃ t, o = .next t := by
  cases o with
  | next t => exact ⟨t, rfl⟩
  | fault f => simp [nextOf] at h
  | refused r => simp [nextOf] at h

theorem fault_of {o : Host.Outcome State Fault Refusal} (h : (faultIn o).isSome = true) : ∃ f, o = .fault f := by
  cases o with
  | next t => simp [faultIn] at h
  | fault f => exact ⟨f, rfl⟩
  | refused r => simp [faultIn] at h

theorem ok_of {ε α : Type} {o : Except ε α} (h : (valueOf o).isSome = true) : ∃ a, o = .ok a := by
  cases o with
  | ok a => exact ⟨a, rfl⟩
  | error e => simp [valueOf] at h

theorem error_of {ε α : Type} {o : Except ε α} (h : (errorOf o).isSome = true) : ∃ e, o = .error e := by
  cases o with
  | ok a => simp [errorOf] at h
  | error e => exact ⟨e, rfl⟩

/-- A core whose registers 1 and 2 hold two values. -/
def holding (a b : Word) : State := at400 0x100#32 0x00500113#32 [(1#5, a), (2#5, b)]

theorem witness_RegisterZeroIsHardwired :
    (∃ (i : Instr) (s t : State), destination i = some 0#5 ∧ exec i s = .next t)
      ∧ ∃ (i : Instr) (s : State) (f : Fault), destination i = some 0#5 ∧ exec i s = .fault f :=
  ⟨⟨.lui 0#5 0x1000#32, ready, _, rfl, rfl⟩, .load 0#5 0#5 2#32, ready, _, rfl, rfl⟩
theorem witness_RegisterWriteSetsOneRegister :
    (∃ i : RegIdx, i ≠ 0#5) ∧ (∃ i : RegIdx, i = 0#5)
      ∧ ∃ p : Instr × State, fetchDecodeAdvance ready = .ok p :=
  ⟨⟨31#5, by decide⟩, ⟨0#5, rfl⟩, ok_of (by decide)⟩
theorem witness_ConstructionLeavesTheInitialState :
    (∃ s, construct 1 1 = .ok s) ∧ (∃ s, construct 0x400 0x400 = .ok s) ∧ 0x400 ≤ 0x400 :=
  ⟨⟨_, rfl⟩, ⟨_, rfl⟩, le_refl _⟩
theorem witness_ConstructionFailsExactlyOutsideCapacity :
    (1 ≤ 1 ∧ 1 ≤ 0x400) ∧ (1 ≤ 0x400 ∧ 0x400 ≤ 0x400) ∧ ¬(1 ≤ 0 ∧ 0 ≤ 0x400) ∧ ¬(1 ≤ 0x401 ∧ 0x401 ≤ 0x400) := by decide
theorem witness_MemorySizeStaysWithinCapacity :
    (∃ m, memNew 0x400 0x400 = .ok m) ∧ (∃ s, construct 0x400 1 = .ok s) ∧ ready.Fits 0x400
      ∧ (∃ t, step ready = .next t)
      ∧ ((ready.setPc 0x102#32).Fits 0x400 ∧ ∃ f, step (ready.setPc 0x102#32) = .fault f)
      ∧ (1 ≤ (Memory.mk 128 []).size ∧ (Memory.mk 128 []).size ≤ 0x400)
      ∧ (∃ e m', loadElf (fun _ => true) (some elf1) ⟨128, []⟩ = .loaded e m')
      ∧ ∃ e m', loadElf (fun _ => true) (some elf8) ⟨128, []⟩ = .failed e m' :=
  ⟨⟨_, rfl⟩, ⟨_, rfl⟩, ⟨by decide, by decide⟩, next_of (by decide), ⟨⟨by decide, by decide⟩, fault_of (by decide)⟩,
    by decide, ⟨_, _, rfl⟩, _, _, rfl⟩
theorem witness_WordAccessIsCheckedInOrder :
    (Memory.mk 0x400 []).size ≤ (0x400#32).toNat
      ∧ ((0x3FF#32).toNat < (Memory.mk 0x400 []).size ∧ (0x3FF#32).toNat % 4 ≠ 0)
      ∧ ((0x3FC#32).toNat < (Memory.mk 0x3FE []).size ∧ (0x3FC#32).toNat % 4 = 0
        ∧ (Memory.mk 0x3FE []).size < (0x3FC#32).toNat + 4)
      ∧ (0x3FC#32).toNat + 4 ≤ (Memory.mk 0x400 []).size ∧ (0x3FC#32).toNat % 4 = 0 := by decide
theorem witness_LoadWordReadsLittleEndian :
    Admitted ready.mem 0x3FC#32 ∧ ¬Admitted ready.mem 0x3FD#32 ∧ ¬Admitted ready.mem 0x400#32 :=
  ⟨by unfold Admitted; decide, by unfold Admitted; decide, by unfold Admitted; decide⟩
theorem witness_StoreWordWritesFourBytes :
    ready.mem.wf ∧ Admitted ready.mem 0x3FC#32 ∧ ¬Admitted ready.mem 0x400#32 :=
  ⟨by decide, by unfold Admitted; decide, by unfold Admitted; decide⟩
theorem witness_ByteAccessorsCheckBoundsOnly :
    ready.mem.wf ∧ ready.mem.size ≤ (0x400#32).toNat ∧ (0x3FF#32).toNat < ready.mem.size := by decide
theorem witness_WordsAndBytesShareStorage :
    ready.mem.wf ∧ Admitted ready.mem 0x3FC#32 ∧ 3 < 4 := ⟨by decide, by unfold Admitted; decide, by decide⟩
theorem witness_MemoryOperationsKeepTheCanonicalForm :
    (∃ m, (2 ^ 32 ≤ 2 ^ 32) ∧ memNew (2 ^ 32) (2 ^ 32) = .ok m)
      ∧ ready.mem.wf ∧ (∃ m, ready.mem.storeWord 0x3FC#32 0#32 = .ok m) ∧ (∃ m, ready.mem.storeByte 0x3FF#32 1#8 = .ok m)
      ∧ (Memory.mk 128 []).wf
      ∧ (∃ e m', loadElf (fun _ => true) (some elf1) ⟨128, []⟩ = .loaded e m')
      ∧ ∃ e m', loadElf (fun _ => true) (some elf8) ⟨128, []⟩ = .failed e m' :=
  ⟨⟨_, le_refl _, rfl⟩, by decide, ⟨_, rfl⟩, ⟨_, rfl⟩, by decide, ⟨_, _, rfl⟩, _, _, rfl⟩
theorem witness_CanonicalMemoriesWithEqualBytesAreEqual :
    ∃ m₁ m₂ : Memory, m₁.wf ∧ m₂.wf ∧ m₁.size = m₂.size ∧ ∀ a, a < m₁.size → m₁.byteAt a = m₂.byteAt a :=
  ⟨⟨1, [(0, 7#8)]⟩, ⟨1, [(0, 7#8)]⟩, by decide, by decide, rfl, fun _ _ => rfl⟩
theorem witness_ImmediatesTakeTheStatedBits : 0 < 32 ∧ 4 < 32 ∧ 11 < 32 ∧ 31 < 32 := by decide
theorem witness_BranchAndJumpImmediatesTakeTheChosenBits : 0 < 32 ∧ 10 < 32 ∧ 11 < 32 ∧ 19 < 32 ∧ 31 < 32 := by decide
theorem witness_DecoderProducesWellFormedInstructions :
    (∃ i, decode 0x00500113#32 = .ok i) ∧ ∃ e, decode 0x0FF0000F#32 = .error e := ⟨⟨_, rfl⟩, ⟨_, rfl⟩⟩
theorem witness_DecodeErrorsAreExactlyTheIllegalWords :
    decode 0x0FF0000F#32 = .error (.unknownOpcode 0x0F#7)
      ∧ decode 0x022091B3#32 = .error (.invalidInstruction 0x022091B3#32) := ⟨rfl, rfl⟩
/-- JALR and LOAD with another funct3; STORE and BRANCH likewise. -/
theorem witness_DecoderIgnoresTheListedBits_funct3 :
    (rdOf 0x0042A383#32 = rdOf 0x0042F383#32 ∧ rs1Of 0x0042A383#32 = rs1Of 0x0042F383#32
      ∧ opcodeOf 0x0042A383#32 = opcodeOf 0x0042F383#32 ∧ opcodeOf 0x0042A383#32 = 0x03#7
      ∧ imm12Of 0x0042A383#32 = imm12Of 0x0042F383#32)
    ∧ (rdOf 0x00208463#32 = rdOf 0x00209463#32 ∧ rs1Of 0x00208463#32 = rs1Of 0x00209463#32
      ∧ opcodeOf 0x00208463#32 = opcodeOf 0x00209463#32 ∧ opcodeOf 0x00208463#32 = 0x63#7
      ∧ rs2Of 0x00208463#32 = rs2Of 0x00209463#32 ∧ funct7Of 0x00208463#32 = funct7Of 0x00209463#32) := by decide
/-- The three clauses of opcode 0x13. -/
theorem witness_DecoderIgnoresTheListedBits_opImm :
    (rdOf 0x00409193#32 = rdOf 0x40409193#32 ∧ rs1Of 0x00409193#32 = rs1Of 0x40409193#32
      ∧ opcodeOf 0x00409193#32 = 0x13#7 ∧ opcodeOf 0x40409193#32 = 0x13#7
      ∧ funct3Of 0x00409193#32 = 1#3 ∧ funct3Of 0x40409193#32 = 1#3 ∧ rs2Of 0x00409193#32 = rs2Of 0x40409193#32)
    ∧ (rdOf 0x0040D193#32 = rdOf 0x4240D193#32 ∧ rs1Of 0x0040D193#32 = rs1Of 0x4240D193#32
      ∧ opcodeOf 0x0040D193#32 = 0x13#7 ∧ opcodeOf 0x4240D193#32 = 0x13#7
      ∧ funct3Of 0x0040D193#32 = 5#3 ∧ funct3Of 0x4240D193#32 = 5#3 ∧ rs2Of 0x0040D193#32 = rs2Of 0x4240D193#32
      ∧ (funct7Of 0x0040D193#32 = 0x20#7 ↔ funct7Of 0x4240D193#32 = 0x20#7))
    ∧ (rdOf 0x00700193#32 = rdOf 0x00707193#32 ∧ rs1Of 0x00700193#32 = rs1Of 0x00707193#32
      ∧ opcodeOf 0x00700193#32 = 0x13#7 ∧ opcodeOf 0x00707193#32 = 0x13#7
      ∧ funct3Of 0x00700193#32 ≠ 1#3 ∧ funct3Of 0x00700193#32 ≠ 5#3
      ∧ funct3Of 0x00707193#32 ≠ 1#3 ∧ funct3Of 0x00707193#32 ≠ 5#3
      ∧ imm12Of 0x00700193#32 = imm12Of 0x00707193#32) := by decide
/-- The two clauses of opcodes 0x33 and 0x3B. -/
theorem witness_DecoderIgnoresTheListedBits_op :
    (rdOf 0x0020F1B3#32 = rdOf 0x002081BB#32 ∧ rs1Of 0x0020F1B3#32 = rs1Of 0x002081BB#32
      ∧ opcodeOf 0x0020F1B3#32 = 0x33#7 ∧ opcodeOf 0x002081BB#32 = 0x3B#7
      ∧ rs2Of 0x0020F1B3#32 = rs2Of 0x002081BB#32 ∧ funct7Of 0x0020F1B3#32 = funct7Of 0x002081BB#32
      ∧ funct7Of 0x0020F1B3#32 ≠ 0x01#7)
    ∧ (rdOf 0x0220C1B3#32 = rdOf 0x0220C1BB#32 ∧ rs1Of 0x0220C1B3#32 = rs1Of 0x0220C1BB#32
      ∧ opcodeOf 0x0220C1B3#32 = 0x33#7 ∧ opcodeOf 0x0220C1BB#32 = 0x3B#7
      ∧ rs2Of 0x0220C1B3#32 = rs2Of 0x0220C1BB#32 ∧ funct7Of 0x0220C1B3#32 = 0x01#7
      ∧ funct7Of 0x0220C1BB#32 = 0x01#7 ∧ funct3Of 0x0220C1B3#32 = funct3Of 0x0220C1BB#32
      ∧ 4 ≤ (funct3Of 0x0220C1B3#32).toNat)
    ∧ funct3Of 0x022081B3#32 = 0#3 := by decide
/-- One word per clause; the others are in the tests above. -/
theorem witness_DecoderReadsTheFieldsOfEveryFamily :
    opcodeOf 0x123452B7#32 = 0x37#7 ∧ opcodeOf 0x00001497#32 = 0x17#7 ∧ opcodeOf 0x100000EF#32 = 0x6F#7
      ∧ opcodeOf 0x003280E7#32 = 0x67#7 ∧ opcodeOf 0x0042A383#32 = 0x03#7
      ∧ (opcodeOf 0x4040D193#32 = 0x13#7 ∧ funct3Of 0x4040D193#32 = 5#3)
      ∧ (opcodeOf 0x00500113#32 = 0x13#7 ∧ funct3Of 0x00500113#32 ≠ 1#3 ∧ funct3Of 0x00500113#32 ≠ 5#3)
      ∧ opcodeOf 0x0062A223#32 = 0x23#7 ∧ opcodeOf 0x00208463#32 = 0x63#7
      ∧ (opcodeOf 0x002081BB#32 = 0x3B#7 ∧ funct7Of 0x002081BB#32 ≠ 0x01#7)
      ∧ (opcodeOf 0x022081B3#32 = 0x33#7 ∧ funct7Of 0x022081B3#32 = 0x01#7 ∧ funct3Of 0x022081B3#32 = 0#3)
      ∧ funct3Of 0x0220C1B3#32 = 4#3 ∧ funct3Of 0x0220D1B3#32 = 5#3 ∧ funct3Of 0x0220E1B3#32 = 6#3
      ∧ funct3Of 0x0220F1B3#32 = 7#3 ∧ 0 < 5 ∧ 4 < 5 := by decide
/-- The SYSTEM clause, with words that differ in rd, and in rs1. -/
theorem witness_DecoderIgnoresTheListedBits_system :
    (opcodeOf 0x00000073#32 = 0x73#7 ∧ opcodeOf 0x000000F3#32 = 0x73#7 ∧ funct3Of 0x00000073#32 = 0#3
      ∧ funct3Of 0x000000F3#32 = 0#3 ∧ imm12Of 0x00000073#32 = imm12Of 0x000000F3#32 ∧ imm12Of 0x00000073#32 = 0#12
      ∧ rdOf 0x00000073#32 ≠ rdOf 0x000000F3#32)
    ∧ (opcodeOf 0x00100073#32 = 0x73#7 ∧ opcodeOf 0x00128073#32 = 0x73#7 ∧ funct3Of 0x00100073#32 = 0#3
      ∧ funct3Of 0x00128073#32 = 0#3 ∧ imm12Of 0x00100073#32 = imm12Of 0x00128073#32 ∧ imm12Of 0x00100073#32 = 1#12
      ∧ rs1Of 0x00100073#32 ≠ rs1Of 0x00128073#32) := by decide
theorem witness_DecoderReadsTheFieldsOfEveryFamily_system :
    (opcodeOf 0x000000F3#32 = 0x73#7 ∧ funct3Of 0x000000F3#32 = 0#3 ∧ imm12Of 0x000000F3#32 = 0#12)
      ∧ opcodeOf 0x00128073#32 = 0x73#7 ∧ funct3Of 0x00128073#32 = 0#3 ∧ imm12Of 0x00128073#32 = 1#12 := by decide
theorem witness_EncodedInstructionDecodesToItself :
    ((Instr.branch 31#5 31#5 4094#32).wellFormed = true ∧ (Instr.branch 31#5 31#5 4094#32).isVariant = true)
      ∧ (Instr.invalidInstruction 0x30200073#32).wellFormed = true := by decide
theorem witness_LuiWritesItsImmediate : opcodeOf 0x123452B7#32 = 0x37#7 := by decide
theorem witness_AuipcAddsItsImmediateToThePc :
    (at400 0x100#32 0x00001497#32 []).fetch = .ok 0x00001497#32 ∧ opcodeOf 0x00001497#32 = 0x17#7
      ∧ decode 0x00001497#32 = .ok (.auipc 9#5 0x1000#32) := ⟨rfl, by decide, rfl⟩
theorem witness_JalLinksAndJumps :
    (at400 0x200#32 0x100000EF#32 []).fetch = .ok 0x100000EF#32 ∧ opcodeOf 0x100000EF#32 = 0x6F#7 := ⟨rfl, by decide⟩
theorem witness_OpImmAddsItsImmediate :
    opcodeOf 0x00500113#32 = 0x13#7 ∧ funct3Of 0x00500113#32 ≠ 1#3 ∧ funct3Of 0x00500113#32 ≠ 5#3 := by decide
theorem witness_ShiftImmShiftsRightOnlyWhenArithmetic :
    0 < 32 ∧ 31 < 32 ∧ (opcodeOf 0x40409193#32 = 0x13#7 ∧ funct3Of 0x40409193#32 = 1#3)
      ∧ opcodeOf 0x4040D193#32 = 0x13#7 ∧ funct3Of 0x4040D193#32 = 5#3 := by decide
theorem witness_LoadWritesTheWordAtItsAddress :
    Admitted (holding 0x3F8#32 0#32).mem ((holding 0x3F8#32 0#32).readReg 1#5 + 4#32) := by unfold Admitted; decide
theorem witness_StoreWritesTheWordAtItsAddress :
    (holding 0x3F8#32 0#32).mem.wf ∧ Admitted (holding 0x3F8#32 0#32).mem ((holding 0x3F8#32 0#32).readReg 1#5 + 4#32) :=
  ⟨by decide, by unfold Admitted; decide⟩
theorem witness_LoadAndStoreRaiseOnABadAddress :
    (holding 0x400#32 0#32).mem.size ≤ ((holding 0x400#32 0#32).readReg 1#5 + 0#32).toNat
      ∧ (((coreAt 0x3FE 0x100#32 0#32 []).readReg 0#5 + 0x3FC#32).toNat % 4 = 0
        ∧ (coreAt 0x3FE 0x100#32 0#32 []).mem.size < ((coreAt 0x3FE 0x100#32 0#32 []).readReg 0#5 + 0x3FC#32).toNat + 4)
      ∧ ((holding 0x3FF#32 0#32).readReg 1#5 + 0#32).toNat < (holding 0x3FF#32 0#32).mem.size
      ∧ ((holding 0x3FF#32 0#32).readReg 1#5 + 0#32).toNat % 4 ≠ 0 := by decide
theorem witness_BranchRedirectsWhenEqual :
    (at400 0x10#32 0x00208463#32 []).fetch = .ok 0x00208463#32 ∧ opcodeOf 0x00208463#32 = 0x63#7
      ∧ decode 0x00208463#32 = .ok (.branch 1#5 2#5 8#32)
      ∧ (∃ t, exec (.branch 1#5 2#5 2#32) (holding 7#32 7#32) = .next t ∧ t.pc.toNat % 4 ≠ 0)
      ∧ (holding 7#32 7#32).readReg 1#5 = (holding 7#32 7#32).readReg 2#5
      ∧ (holding 7#32 8#32).readReg 1#5 ≠ (holding 7#32 8#32).readReg 2#5 :=
  ⟨rfl, by decide, rfl, ⟨_, rfl, by decide⟩, by decide, by decide⟩
theorem witness_OpAddsSubtractsOrRaises :
    (opcodeOf 0x002081BB#32 = 0x3B#7 ∧ funct7Of 0x002081BB#32 ≠ 0x01#7)
      ∧ (0x7F#7 ≠ 0x00#7 ∧ 0x7F#7 ≠ 0x20#7)
      ∧ (at400 0x100#32 0x0A2081B3#32 []).fetch = .ok 0x0A2081B3#32
      ∧ opcodeOf 0x0A2081B3#32 = 0x33#7 ∧ funct7Of 0x0A2081B3#32 ≠ 0x00#7 ∧ funct7Of 0x0A2081B3#32 ≠ 0x01#7
      ∧ funct7Of 0x0A2081B3#32 ≠ 0x20#7 :=
  ⟨by decide, by decide, rfl, by decide, by decide, by decide, by decide⟩
/-- The three cases of DIV and REM, and the two of DIVU and REMU, exclude each other: one witness each. -/
theorem witness_DivWritesTheSignedQuotient :
    (holding 7#32 0#32).readReg 2#5 = 0#32
      ∧ ((holding 0x80000000#32 0xFFFFFFFF#32).readReg 1#5 = 0x80000000#32
        ∧ (holding 0x80000000#32 0xFFFFFFFF#32).readReg 2#5 = 0xFFFFFFFF#32)
      ∧ (holding 0x80000000#32 1#32).readReg 2#5 ≠ 0#32
      ∧ ¬((holding 0x80000000#32 1#32).readReg 1#5 = 0x80000000#32
        ∧ (holding 0x80000000#32 1#32).readReg 2#5 = 0xFFFFFFFF#32) := by decide
theorem witness_DivuWritesTheUnsignedQuotient :
    (holding 7#32 0#32).readReg 2#5 = 0#32 ∧ (holding 7#32 0xFFFFFFFF#32).readReg 2#5 ≠ 0#32 := by decide
theorem witness_RemWritesTheSignedRemainder :
    (holding 7#32 0#32).readReg 2#5 = 0#32
      ∧ ((holding 0x80000000#32 0xFFFFFFFF#32).readReg 1#5 = 0x80000000#32
        ∧ (holding 0x80000000#32 0xFFFFFFFF#32).readReg 2#5 = 0xFFFFFFFF#32)
      ∧ (holding 0x7FFFFFFF#32 0xFFFFFFFF#32).readReg 2#5 ≠ 0#32
      ∧ ¬((holding 0x7FFFFFFF#32 0xFFFFFFFF#32).readReg 1#5 = 0x80000000#32
        ∧ (holding 0x7FFFFFFF#32 0xFFFFFFFF#32).readReg 2#5 = 0xFFFFFFFF#32) := by decide
theorem witness_RemuWritesTheUnsignedRemainder :
    (holding 7#32 0#32).readReg 2#5 = 0#32 ∧ (holding 7#32 1#32).readReg 2#5 ≠ 0#32 := by decide
theorem witness_QuotientAndRemainderAgree :
    ∃ (s q r qu ru : State), 3#5 ≠ 0#5 ∧ s.readReg 2#5 ≠ 0#32 ∧ exec (.div 3#5 1#5 2#5) s = .next q
      ∧ exec (.rem 3#5 1#5 2#5) s = .next r ∧ exec (.divu 3#5 1#5 2#5) s = .next qu
      ∧ exec (.remu 3#5 1#5 2#5) s = .next ru
      ∧ ¬(s.readReg 1#5 = 0x80000000#32 ∧ s.readReg 2#5 = 0xFFFFFFFF#32) :=
  ⟨holding 0xFFFFFFF9#32 2#32, _, _, _, _, by decide, by decide, rfl, rfl, rfl, rfl, by decide⟩
theorem witness_CycleRunsTheInstructionAtThePc :
    Admitted ready.mem ready.pc
      ∧ decodeBytes [ready.mem.byteAt 0x100, ready.mem.byteAt 0x101, ready.mem.byteAt 0x102, ready.mem.byteAt 0x103]
        = some (.opImm 2#5 0#5 5#32, [])
      ∧ (Instr.opImm 2#5 0#5 5#32).isVariant = true
      ∧ decodeBytes [0x0F#8, 0x00#8, 0xF0#8, 0x0F#8] = some (.unknownOpcode 0x0F#7, [])
      ∧ (Instr.unknownOpcode 0x0F#7).isVariant = false :=
  ⟨by unfold Admitted; decide, by decide, rfl, by decide, rfl⟩
theorem witness_StepOperationFetchesDecodesAndAdvances :
    (∃ e, (ready.setPc 0x400#32).mem.loadWord 0x400#32 = .error e)
      ∧ (∃ w e, (ready.setPc 0x200#32).mem.loadWord 0x200#32 = .ok w ∧ decode w = .error e)
      ∧ ∃ w d, ready.mem.loadWord ready.pc = .ok w ∧ decode w = .ok d :=
  ⟨⟨_, rfl⟩, ⟨_, _, rfl, rfl⟩, ⟨_, _, rfl, rfl⟩⟩
theorem witness_CycleIsStepThenExecute :
    (∃ e, (hostOp .step (ready.setPc 0x400#32)).1 = .cpuError e)
      ∧ (∃ d t, (hostOp .step ready).1 = .instr d ∧ hostOp (.execute d) (hostOp .step ready).2 = (.unit, t))
      ∧ ∃ d e t, (hostOp .step (at400 0x100#32 0x0A2081B3#32 [])).1 = .instr d
        ∧ hostOp (.execute d) (hostOp .step (at400 0x100#32 0x0A2081B3#32 [])).2 = (.cpuError e, t) :=
  ⟨⟨_, rfl⟩, ⟨_, _, rfl, rfl⟩, ⟨_, _, _, rfl, rfl⟩⟩
theorem witness_OnlyJumpsAndTakenBranchesWriteThePc :
    (∃ p : Instr × State, fetchDecodeAdvance ready = .ok p)
      ∧ ∃ t, exec (.branch 1#5 2#5 8#32) (holding 7#32 7#32) = .next t ∧ t.pc ≠ (holding 7#32 7#32).pc :=
  ⟨ok_of (by decide), _, rfl, by decide⟩
theorem witness_OnlyTheDestinationRegisterChanges :
    (∃ t, exec (.opImm 2#5 0#5 5#32) ready = .next t ∧ destination (.opImm 2#5 0#5 5#32) ≠ some 1#5)
      ∧ ∃ t, step ready = .next t ∧ t.readReg 2#5 ≠ ready.readReg 2#5 :=
  ⟨⟨_, rfl, by decide⟩, ⟨_, rfl, by decide⟩⟩
theorem witness_OnlyStoreChangesMemory :
    (∃ t, exec (.opImm 2#5 0#5 5#32) ready = .next t ∧ storesWord (.opImm 2#5 0#5 5#32) = false)
      ∧ ∃ t, (holding 0x3FC#32 0xAABBCCDD#32).mem.wf
        ∧ exec (.store 1#5 2#5 0#32) (holding 0x3FC#32 0xAABBCCDD#32) = .next t
        ∧ 0x3FB < (effectiveAddress 1#5 0#32 (holding 0x3FC#32 0xAABBCCDD#32)).toNat
        ∧ (effectiveAddress 1#5 0#32 (holding 0x3FC#32 0xAABBCCDD#32)).toNat + 4 ≤ 0x400 :=
  ⟨⟨_, rfl, rfl⟩, ⟨_, by decide, rfl, by decide, by decide⟩⟩
theorem witness_ErrorsChangeNothing :
    (∃ f, exec (.op 3#5 1#5 2#5 0x05#7) ready = .fault f) ∧ (∃ f, step (ready.setPc 0x102#32) = .fault f)
      ∧ ∃ f, step (at400 0x100#32 0x0A2081B3#32 []) = .fault f :=
  ⟨⟨_, rfl⟩, fault_of (by decide), fault_of (by decide)⟩
theorem witness_OnlyLoadStoreAndOpRaise :
    (∃ f, (Instr.load 7#5 0#5 2#32).isVariant = true ∧ exec (.load 7#5 0#5 2#32) ready = .fault f)
      ∧ (∃ f, (Instr.store 0#5 7#5 2#32).isVariant = true ∧ exec (.store 0#5 7#5 2#32) ready = .fault f)
      ∧ ∃ f, (Instr.op 3#5 1#5 2#5 0x05#7).isVariant = true ∧ exec (.op 3#5 1#5 2#5 0x05#7) ready = .fault f :=
  ⟨⟨_, rfl, rfl⟩, ⟨_, rfl, rfl⟩, ⟨_, rfl, rfl⟩⟩
theorem witness_ABadPcRaisesAtTheNextFetch :
    (ready.setPc 0x400#32).mem.size ≤ (ready.setPc 0x400#32).pc.toNat
      ∧ ((ready.setPc 0x3FF#32).pc.toNat < (ready.setPc 0x3FF#32).mem.size ∧ (ready.setPc 0x3FF#32).pc.toNat % 4 ≠ 0)
      ∧ (coreAt 0x3FE 0x3FC#32 0#32 []).pc.toNat < (coreAt 0x3FE 0x3FC#32 0#32 []).mem.size
      ∧ (coreAt 0x3FE 0x3FC#32 0#32 []).pc.toNat % 4 = 0
      ∧ (coreAt 0x3FE 0x3FC#32 0#32 []).mem.size < (coreAt 0x3FE 0x3FC#32 0#32 []).pc.toNat + 4 := by decide
theorem witness_AStoreIsSeenByTheNextFetch :
    ∃ t, (holding 0x100#32 0x00000073#32).mem.wf
      ∧ exec (.store 1#5 2#5 0#32) (holding 0x100#32 0x00000073#32) = .next t
      ∧ t.pc = (holding 0x100#32 0x00000073#32).readReg 1#5 + 0#32
      ∧ decode ((holding 0x100#32 0x00000073#32).readReg 2#5) = .ok .ecall :=
  ⟨_, by decide, rfl, by decide, rfl⟩
theorem witness_TheIndicatorIsOnlyWritten :
    (∃ t, exec (.opImm 2#5 0#5 5#32) ready = .next t) ∧ (∃ p : Instr × State, fetchDecodeAdvance ready = .ok p)
      ∧ ∃ f, exec (.op 3#5 1#5 2#5 0x05#7) ready = .fault f := ⟨⟨_, rfl⟩, ok_of (by decide), ⟨_, rfl⟩⟩
theorem witness_UnnamedRegistersDoNotMatter :
    (destination (.opImm 2#5 0#5 5#32) ≠ some 1#5 ∧ 1#5 ∉ sources (.opImm 2#5 0#5 5#32)
        ∧ ∃ t, exec (.opImm 2#5 0#5 5#32) ready = .next t)
      ∧ destination (.load 7#5 0#5 2#32) ≠ some 1#5 ∧ 1#5 ∉ sources (.load 7#5 0#5 2#32)
      ∧ ∃ f, exec (.load 7#5 0#5 2#32) ready = .fault f :=
  ⟨⟨by decide, by decide, _, rfl⟩, by decide, by decide, _, rfl⟩
theorem witness_EveryCycleKeepsTheInvariant :
    (ready.Inv ∧ ∃ t, step ready = .next t)
      ∧ (ready.setPc 0x102#32).Inv ∧ ∃ f, step (ready.setPc 0x102#32) = .fault f :=
  ⟨⟨⟨by decide, by decide⟩, next_of (by decide)⟩, ⟨by decide, by decide⟩, fault_of (by decide)⟩
theorem witness_EveryHostOperationKeepsTheInvariant : ready.Inv := ⟨by decide, by decide⟩
/-- The run used up its budget. -/
def ranOut : RunEnd → Bool
  | .outOfFuel _ => true
  | _ => false

/-- A run whose second cycle fails (it fetches 0x00000000), and one that stops at once. -/
theorem witness_ARunThatEndedDoesNotDependOnItsBudget :
    (∀ s', runCycles (fun _ _ _ => false) 2 none ready ≠ .outOfFuel s')
      ∧ ∀ s', runCycles (fun _ _ _ => true) 0 none ready ≠ .outOfFuel s' :=
  ⟨fun s' h => absurd ((by decide : ranOut (runCycles (fun _ _ _ => false) 2 none ready) = false).symm.trans (congrArg ranOut h))
      (by simp [ranOut]), fun s' h => by simp [runCycles] at h⟩
theorem witness_SegmentsAreCheckedCopiedAndZeroFilled :
    (Memory.mk 128 []).wf
      ∧ ((Memory.mk 128 []).size < (programHeaderAt elf8 84).paddr.toNat + (programHeaderAt elf8 84).memsz.toNat
        ∧ 84 + 32 ≤ elf8.length ∧ (programHeaderAt elf8 84).type = 1#32)
      ∧ (programHeaderAt elf1 52).paddr.toNat + (programHeaderAt elf1 52).memsz.toNat ≤ (Memory.mk 128 []).size
      ∧ (programHeaderAt elf1 52).filesz.toNat ≤ (programHeaderAt elf1 52).memsz.toNat
      ∧ (programHeaderAt elf1 52).offset.toNat + (programHeaderAt elf1 52).filesz.toNat ≤ elf1.length
      ∧ 3 < (programHeaderAt elf1 52).filesz.toNat ∧ (programHeaderAt elf1 52).filesz.toNat ≤ 7
      ∧ 7 < (programHeaderAt elf1 52).memsz.toNat :=
  ⟨by decide, ⟨by decide, by decide, rfl⟩, by decide, by decide, by decide, by decide, by decide, by decide⟩
theorem witness_TheLoaderRejectsBeforeTouchingMemory :
    (6 ≤ (elfHeader 2#8 1#8 0#32 0#16).length
        ∧ ¬((elfHeader 2#8 1#8 0#32 0#16).getD 4 0#8 = 1#8 ∧ (elfHeader 2#8 1#8 0#32 0#16).getD 5 0#8 = 1#8))
      ∧ [0x7F#8, 0x45#8, 0x4C#8, 0x46#8, 1#8].length < 6
      ∧ ((elf1.take 51).getD 4 0#8 = 1#8 ∧ (elf1.take 51).getD 5 0#8 = 1#8 ∧ (elf1.take 51).length < 52)
      ∧ (elf1.getD 4 0#8 = 1#8 ∧ elf1.getD 5 0#8 = 1#8 ∧ (fun _ : List Byte => false) elf1 = false) := by decide
/-- The table one byte past the end of the file, and a header past it whose table is inside. -/
theorem witness_TheLoaderRejectsBeforeTouchingMemory_table :
    ((elf1.take 83).getD 4 0#8 = 1#8 ∧ (elf1.take 83).getD 5 0#8 = 1#8
      ∧ (elf1.take 83).length < (fileWord (elf1.take 83) 28).toNat
        + (fileHalf (elf1.take 83) 44).toNat * (fileHalf (elf1.take 83) 42).toNat)
    ∧ elfShort.getD 4 0#8 = 1#8 ∧ elfShort.getD 5 0#8 = 1#8 ∧ 0 < (fileHalf elfShort 44).toNat
    ∧ elfShort.length < (fileWord elfShort 28).toNat + 0 * (fileHalf elfShort 42).toNat + 32 := by decide
/-- The file of V-ELF-1 passes every check, its header ending inside it. -/
theorem witness_TheLoaderRejectsBeforeTouchingMemory_accepted :
    elf1.getD 4 0#8 = 1#8 ∧ elf1.getD 5 0#8 = 1#8 ∧ 52 ≤ elf1.length
      ∧ elf1.take 4 = [0x7F#8, 0x45#8, 0x4C#8, 0x46#8]
      ∧ (fileWord elf1 28).toNat + (fileHalf elf1 44).toNat * (fileHalf elf1 42).toNat ≤ elf1.length
      ∧ (∀ i, i < (fileHalf elf1 44).toNat → (fileWord elf1 28).toNat + i * (fileHalf elf1 42).toNat + 32 ≤ elf1.length)
      ∧ (fun _ : List Byte => true) elf1 = true := by decide
theorem witness_ABootStartsAtTheEntry : ∃ h, boot 0x400 128 (fun _ => true) (some elf1) = .launched h := ⟨_, rfl⟩
theorem witness_TheHostSetsThePcBeforeItsFirstStep :
    (∀ v, HostOp.setPc v ∉ [HostOp.readPc, .execute .ecall])
      ∧ (HostOp.execute .ecall ≠ .step ∧ (Session.fresh ready).pcSet = false)
      ∧ (Session.mk ready true).pcSet = true := by
  refine ⟨fun v => by simp, by decide, rfl⟩

end Sys2Proof.Tests
end

section
/-! PROOFS for spec/00_scope.md: the canonical form of memory under the loader and the stores (R11), and the invariant of a
core under every operation of its host (R7, R8). -/

namespace Sys2Proof.Machine

/-! ## The canonical form -/

/-- Whatever a load ends in, the memory it leaves keeps the canonical form: it is the memory before, or what
`loadSegments` leaves. -/
theorem loadElf_keeps_wf {parseOk : List Byte → Bool} {file : Option (List Byte)} {m : Memory} (hm : m.wf) :
    (∀ e m', loadElf parseOk file m = .loaded e m' → m'.wf)
      ∧ ∀ e m', loadElf parseOk file m = .failed e m' → m'.wf := by
  rcases loadElf_cases parseOk file m with ⟨-, he⟩ | ⟨buf, -, ⟨-, he⟩ | ⟨-, -, he⟩ | ⟨-, -, he⟩⟩
  · simpa [he] using hm
  · simpa [he] using hm
  · simpa [he] using hm
  · obtain ⟨loaded, failed⟩ := loadSegments_keeps (buf := buf) (os := programHeaderOffsets buf) (m := m)
    rw [he]
    refine ⟨fun e m' h => ?_, fun e m' h => (failed e m' h).2 hm⟩
    obtain ⟨-, -, keeps⟩ := loaded e m' h
    exact keeps hm

/-- Settles O11: a new memory, a store and a load each have their lemma about `Memory.wf`. -/
theorem memoryOperationsKeepTheCanonicalForm : Obligations.MemoryOperationsKeepTheCanonicalForm :=
  ⟨fun _ _ _ hmax h => (memNew_wf hmax h).1, fun _ _ _ _ => storeWord_wf, fun _ _ _ _ => storeByte_wf,
    fun _ _ _ m' e hm => (loadElf_keeps_wf hm).1 e m', fun _ _ _ m' e hm => (loadElf_keeps_wf hm).2 e m'⟩

/-! ## The invariant under the operations on a state -/

@[simp] theorem setPc_inv (s : State) (t : Word) : (s.setPc t).Inv ↔ s.Inv := Iff.rfl

@[simp] theorem markRunning_inv (s : State) : s.markRunning.Inv ↔ s.Inv := Iff.rfl

@[simp] theorem advance_inv (s : State) : s.advance.Inv ↔ s.Inv := Iff.rfl

@[simp] theorem writeReg_inv (s : State) (r : RegIdx) (v : Word) : (s.writeReg r v).Inv ↔ s.Inv := by
  simp only [State.Inv, writeReg_mem, writeReg_slot_zero]

/-- Another memory in canonical form keeps the invariant. -/
theorem setMem_inv {s : State} {m : Memory} (h : s.Inv) (hm : m.wf) : (s.setMem m).Inv := ⟨hm, h.2⟩

/-! ## The invariant under execute and the host's operations -/

/-- An execute that completes keeps the invariant, whichever of its effects it had. -/
theorem exec_inv {i : Instr} {s t : State} (h : s.Inv) (he : exec i s = .next t) : t.Inv := by
  cases exec_effect he with
  | result rd v _ ht => simpa [ht] using h
  | jump rd target _ _ ht => simpa [ht] using h
  | branch target _ _ ht => simpa [ht] using h
  | store a v m _ hm ht => simpa [ht] using setMem_inv h (storeWord_wf h.1 hm)
  | nothing ht => simpa [ht] using h

/-- Settles O55, by the states that an operation of the host can lead to. -/
theorem everyHostOperationKeepsTheInvariant : Obligations.EveryHostOperationKeepsTheInvariant := by
  intro o s h
  rcases hostOp_state_cases o s with
    he | ⟨m, a, v, hm, he⟩ | ⟨m, a, b, hm, he⟩ | ⟨i, v, he⟩ | ⟨v, he⟩ | he | ⟨d, t, hx, he⟩ <;> rw [he]
  · exact h
  · exact setMem_inv h (storeWord_wf h.1 hm)
  · exact setMem_inv h (storeByte_wf h.1 hm)
  · exact (writeReg_inv s i v).2 h
  · exact (setPc_inv s v).2 h
  · exact (advance_inv s).2 h
  · exact exec_inv h hx

end Sys2Proof.Machine
end

section
/-! PROOFS for spec/10_state.md: the invariant under a cycle, the pc and the registers that an instruction writes (R31, R33,
R35, R39), a bad pc (R40, R42), and what an instruction does not depend on (R35, R47). -/

namespace Sys2Proof.Machine

/-! ## A cycle -/

/-- A cycle that ends in an error leaves the state before it or, when its execute raised, that state with the pc past the
instruction. -/
theorem step_fault_after {s : State} {f : Fault} (h : step s = .fault f) : f.after = s ∨ f.after = s.advance := by
  rcases step_cases s with ⟨e, -, he⟩ | ⟨w, e, -, -, he⟩ | ⟨w, i, -, -, he⟩ <;> rw [he] at h
  · exact .inl (by simp [(raise_eq_fault ..).1 h])
  · exact .inl (by simp [(raise_eq_fault ..).1 h])
  · exact .inr (by rw [exec_fault_eq h, faultOf_after])

/-- Settles O54: a cycle's outcome is that of an execute from the advanced state, or an error in one of the two states
that `step_fault_after` names. -/
theorem everyCycleKeepsTheInvariant : Obligations.EveryCycleKeepsTheInvariant := by
  refine fun s h => ⟨fun t ht => ?_, fun f hf => ?_⟩
  · obtain ⟨w, i, -, -, hx⟩ := step_next ht
    exact exec_inv ((advance_inv s).2 h) hx
  · rcases step_fault_after hf with he | he <;> rw [he]
    · exact h
    · exact (advance_inv s).2 h

/-! ## The pc -/

/-- An execute that completes keeps the pc, unless its instruction is a JAL, a JALR or a BRANCH. -/
theorem exec_pc_of_not_redirects {i : Instr} {s t : State} (he : exec i s = .next t) (hi : redirects i = false) :
    t.pc = s.pc := by
  cases exec_effect he with
  | result rd v _ ht => simp [ht]
  | jump rd target _ hr ht => simp [hr] at hi
  | branch target _ hr ht => simp [hr] at hi
  | store a v m _ _ ht => simp [ht]
  | nothing ht => simp [ht]

/-- A BRANCH of two registers that differ keeps the pc. -/
theorem execBranch_pc_of_ne {rs1 rs2 : RegIdx} {imm : Word} {s t : State} (he : execBranch rs1 rs2 imm s = .next t)
    (hne : s.readReg rs1 ≠ s.readReg rs2) : t.pc = s.pc := by
  have ht := (complete_eq_next ..).1 he
  simp [ht, registersEqual, hne]

/-- Settles O43: `step()` advances, and an execute with another pc has one of the three redirecting instructions. -/
theorem onlyJumpsAndTakenBranchesWriteThePc : Obligations.OnlyJumpsAndTakenBranchesWriteThePc := by
  refine ⟨fun s t d h => ?_, fun i s t he hpc => ?_⟩
  · obtain ⟨w, -, -, rfl⟩ := fetchDecodeAdvance_ok h
    exact advance_pc s
  · cases i with
    | jal rd imm => exact .inl ⟨rd, imm, rfl⟩
    | jalr rd rs1 imm => exact .inr (.inl ⟨rd, rs1, imm, rfl⟩)
    | branch rs1 rs2 imm =>
      exact .inr (.inr ⟨rs1, rs2, imm, rfl, by_contra fun hne => hpc (execBranch_pc_of_ne he hne)⟩)
    | lui | auipc | load | shiftImm | opImm | store | op | mul | div | divu | rem | remu | ecall | ebreak
      | invalidInstruction | unknownOpcode => exact absurd (exec_pc_of_not_redirects he rfl) hpc

/-! ## A bad pc -/

/-- The word check past the end of memory (R63). -/
theorem wordError_of_size_le {m : Memory} {a : Word} (h : m.size ≤ a.toNat) :
    m.wordError a = some (.outOfBounds a m.size) := by
  rw [Memory.wordError, if_pos h]

/-- The word check at a misaligned address inside memory (R63). -/
theorem wordError_of_misaligned {m : Memory} {a : Word} (h : a.toNat < m.size) (ha : a.toNat % 4 ≠ 0) :
    m.wordError a = some (.unalignedAccess a 4) := by
  rw [Memory.wordError, if_neg (Nat.not_le.2 h), if_pos ha]

/-- The word check at an aligned address whose word goes past the end (R63). -/
theorem wordError_of_span {m : Memory} {a : Word} (h : a.toNat < m.size) (ha : a.toNat % 4 = 0)
    (hs : m.size < a.toNat + 4) : m.wordError a = some (.outOfBounds a m.size) := by
  rw [Memory.wordError, if_neg (Nat.not_le.2 h), if_neg (not_not.2 ha), if_pos hs]

/-- A pc that the word check refuses ends the cycle in its error, with the state as before. -/
theorem step_of_wordError {s : State} {e : MemoryError} (h : s.mem.wordError s.pc = some e) :
    step s = .fault (.memory e s) :=
  step_of_fetch_error (loadWord_error_iff.2 h)

/-- Settles O49: the three ways the word check refuses the pc. -/
theorem aBadPcRaisesAtTheNextFetch : Obligations.ABadPcRaisesAtTheNextFetch := fun _ =>
  ⟨fun h => step_of_wordError (wordError_of_size_le h),
    fun h ha => step_of_wordError (wordError_of_misaligned h ha),
    fun h ha hs => step_of_wordError (wordError_of_span h ha hs)⟩

/-! ## The registers an instruction writes -/

/-- An execute that completes keeps every register but its instruction's destination. -/
theorem exec_readReg_of_ne_destination {i : Instr} {s t : State} {r : RegIdx} (he : exec i s = .next t)
    (hr : destination i ≠ some r) : t.readReg r = s.readReg r := by
  have other : ∀ {rd}, destination i = some rd → r ≠ rd := fun hd h => hr (h ▸ hd)
  cases exec_effect he with
  | result rd v hd ht => simp [ht, readReg_writeReg_other s v (other hd)]
  | jump rd target hd _ ht => simp [ht, readReg_writeReg_other s _ (other hd)]
  | branch target _ _ ht => simp [ht]
  | store a v m _ _ ht => simp [ht]
  | nothing ht => simp [ht]

/-- Settles O44: a register that a cycle changes is one its execute changes. -/
theorem onlyTheDestinationRegisterChanges : Obligations.OnlyTheDestinationRegisterChanges := by
  refine ⟨fun i s t r he hr => exec_readReg_of_ne_destination he hr, fun s t r h hne => ?_⟩
  obtain ⟨w, i, hw, hi, hx⟩ := step_next h
  refine ⟨w, i, hw, hi, ?_, ?_⟩
  · by_contra hd
    exact hne ((exec_readReg_of_ne_destination hx hd).trans (advance_readReg s r))
  · rintro rfl
    exact hne rfl

/-- Settles O2, by the laws of `writeReg` and the state that `step()` leaves. -/
theorem registerWriteSetsOneRegister : Obligations.RegisterWriteSetsOneRegister := by
  refine fun s i v => ⟨fun hi => ?_, fun hi => ?_, fun r hr => readReg_writeReg_other s v hr, writeReg_pc s i v,
    writeReg_mem s i v, writeReg_phase s i v, fun d t h => ?_⟩
  · rw [readReg_writeReg_same, if_neg hi]
  · rw [hi, writeReg_zero]
  · obtain ⟨w, -, -, rfl⟩ := fetchDecodeAdvance_ok h
    exact advance_readReg s

/-- An execute raises the same error, in the same state, whatever destination its instruction has. -/
theorem exec_withDestination_eq_fault (q : RegIdx) (i : Instr) (s : State) (f : Fault) :
    exec (withDestination q i) s = .fault f ↔ exec i s = .fault f := by
  cases i with
  | load rd rs1 imm =>
    simp only [withDestination, exec, execLoad]
    cases s.mem.loadWord (effectiveAddress rs1 imm s) <;> simp [completeWith]
  | op rd rs1 rs2 funct7 =>
    simp only [withDestination, exec, execOp]
    cases opResult funct7 (s.readReg rs1) (s.readReg rs2) <;> simp [completeWith]
  | store | branch | ecall | ebreak | invalidInstruction | unknownOpcode => exact Iff.rfl
  | lui | auipc | jal | jalr | shiftImm | opImm | mul | div | divu | rem | remu =>
    exact iff_of_false (complete_ne_fault _ _) (complete_ne_fault _ _)

theorem destination_withDestination {i : Instr} {rd : RegIdx} (q : RegIdx) (h : destination i = some rd) :
    destination (withDestination q i) = some q := by
  cases i with
  | store | branch | ecall | ebreak | invalidInstruction | unknownOpcode => simp [destination] at h
  | lui | auipc | jal | jalr | load | shiftImm | opImm | op | mul | div | divu | rem | remu => rfl

/-- Settles O1: an instruction with destination `x[0]` can change `x[0]` only, which always reads as zero. -/
theorem registerZeroIsHardwired : Obligations.RegisterZeroIsHardwired := by
  refine fun s v => ⟨readReg_zero s, rfl, fun i t hd he r => ?_, fun i q f hd =>
    ⟨destination_withDestination q hd, (exec_withDestination_eq_fault q i s f).symm⟩⟩
  by_cases hr : r = 0#5
  · rw [hr, readReg_zero, readReg_zero]
  · refine exec_readReg_of_ne_destination he fun h => hr ?_
    exact Option.some.inj (h.symm.trans hd)

/-! ## What an execute reads -/

/-- Everything an execute that completes can write: one register, the pc and memory. -/
def State.update (s : State) (rd : RegIdx) (v pc : Word) (m : Memory) : State :=
  ((s.writeReg rd v).setPc pc).setMem m

/-- The register of that write: the instruction's destination, or `x[0]`, where a write is discarded. -/
def written (i : Instr) : RegIdx := (destination i).getD 0#5

/-- One instruction finds the same inputs in two states: its source registers, the pc and memory. -/
structure SameInputs (i : Instr) (s u : State) : Prop where
  regs : ∀ q ∈ sources i, u.readReg q = s.readReg q
  pc : u.pc = s.pc
  mem : u.mem = s.mem

/-- Execute ends alike in two states: it raises the same error in both, or completes with the same writes in both. -/
inductive EndsAlike (i : Instr) (s u : State) : Prop where
  | raised (e : CpuError) (hs : exec i s = raise e s) (hu : exec i u = raise e u)
  | completed (v pc : Word) (m : Memory) (hs : exec i s = complete (s.update (written i) v pc m))
      (hu : exec i u = complete (u.update (written i) v pc m))

theorem completeWith_eq_update (rd : RegIdx) (v : Word) (s : State) :
    completeWith rd v s = complete (s.update rd v s.pc s.mem) := by
  rw [← writeReg_pc s rd v, ← writeReg_mem s rd v]; rfl

theorem completeJump_eq_update (rd : RegIdx) (target : Word) (s : State) :
    completeJump rd target s = complete (s.update rd (s.pc + 4#32) target s.mem) := by
  rw [← writeReg_mem s rd (s.pc + 4#32)]; rfl

section
variable {i : Instr} {s u : State} (h : SameInputs i s u)
include h

theorem SameInputs.endsAlike_of_completeWith {rd : RegIdx} {v : Word} (hd : destination i = some rd)
    (hs : exec i s = completeWith rd v s) (hu : exec i u = completeWith rd v u) : EndsAlike i s u := by
  obtain rfl : written i = rd := by simp [written, hd]
  exact .completed v s.pc s.mem (hs.trans (completeWith_eq_update ..))
    (by rw [hu, completeWith_eq_update, h.pc, h.mem])

theorem SameInputs.endsAlike_of_completeJump {rd : RegIdx} {target : Word} (hd : destination i = some rd)
    (hs : exec i s = completeJump rd target s) (hu : exec i u = completeJump rd target u) : EndsAlike i s u := by
  obtain rfl : written i = rd := by simp [written, hd]
  exact .completed (s.pc + 4#32) target s.mem (hs.trans (completeJump_eq_update ..))
    (by rw [hu, completeJump_eq_update, h.pc, h.mem])

end

/-- What an execute does depends on the state by the inputs of its instruction only. -/
theorem SameInputs.endsAlike {i : Instr} {s u : State} (h : SameInputs i s u) : EndsAlike i s u := by
  have ⟨hregs, hpc, hmem⟩ := h
  cases i with
  | lui rd imm => exact h.endsAlike_of_completeWith rfl rfl rfl
  | auipc rd imm => exact h.endsAlike_of_completeWith rfl rfl (by rw [← hpc]; rfl)
  | jal rd imm => exact h.endsAlike_of_completeJump rfl rfl (by simp [exec, execJal, relativeTarget, hpc])
  | jalr rd rs1 imm =>
    have h1 := hregs rs1 (by simp [sources])
    exact h.endsAlike_of_completeJump rfl rfl (by simp [exec, execJalr, absoluteTarget, h1])
  | load rd rs1 imm =>
    have ha : effectiveAddress rs1 imm u = effectiveAddress rs1 imm s :=
      congrArg (· + imm) (hregs rs1 (by simp [sources]))
    cases hl : s.mem.loadWord (effectiveAddress rs1 imm s) with
    | error e => exact .raised (.memory e) (by simp [exec, execLoad, hl]) (by simp [exec, execLoad, ha, hmem, hl])
    | ok v =>
      exact h.endsAlike_of_completeWith (v := v) rfl (by simp [exec, execLoad, hl])
        (by simp [exec, execLoad, ha, hmem, hl])
  | shiftImm rd rs1 shamt arithmetic =>
    have h1 := hregs rs1 (by simp [sources])
    exact h.endsAlike_of_completeWith rfl rfl (by simp [exec, execShiftImm, h1])
  | opImm rd rs1 imm =>
    have h1 := hregs rs1 (by simp [sources])
    exact h.endsAlike_of_completeWith rfl rfl (by simp [exec, execOpImm, h1])
  | store rs1 rs2 imm =>
    have ha : effectiveAddress rs1 imm u = effectiveAddress rs1 imm s :=
      congrArg (· + imm) (hregs rs1 (by simp [sources]))
    have h2 := hregs rs2 (by simp [sources])
    cases hm : s.mem.storeWord (effectiveAddress rs1 imm s) (s.readReg rs2) with
    | error e =>
      exact .raised (.memory e) (by simp [exec, execStore, hm]) (by simp [exec, execStore, ha, h2, hmem, hm])
    | ok m =>
      refine .completed 0#32 s.pc m (by simp only [exec, execStore, hm]; rfl) ?_
      simp only [exec, execStore, ha, h2, hmem, hm, ← hpc]
      rfl
  | branch rs1 rs2 imm =>
    have hc : registersEqual rs1 rs2 u = registersEqual rs1 rs2 s := by
      simp only [registersEqual, hregs rs1 (by simp [sources]), hregs rs2 (by simp [sources])]
    cases ht : registersEqual rs1 rs2 s with
    | true =>
      refine .completed 0#32 (relativeTarget imm s) s.mem (by simp only [exec, execBranch, ht]; rfl) ?_
      simp only [exec, execBranch, hc, ht, relativeTarget, ← hpc, ← hmem]
      rfl
    | false =>
      refine .completed 0#32 s.pc s.mem (by simp only [exec, execBranch, ht]; rfl) ?_
      simp only [exec, execBranch, hc, ht, ← hpc, ← hmem]
      rfl
  | op rd rs1 rs2 funct7 =>
    have h1 := hregs rs1 (by simp [sources])
    have h2 := hregs rs2 (by simp [sources])
    cases ho : opResult funct7 (s.readReg rs1) (s.readReg rs2) with
    | none =>
      exact .raised (.invalidOperation funct7) (by simp [exec, execOp, ho]) (by simp [exec, execOp, h1, h2, ho])
    | some v =>
      exact h.endsAlike_of_completeWith (v := v) rfl (by simp [exec, execOp, ho])
        (by simp [exec, execOp, h1, h2, ho])
  | mul rd rs1 rs2 | div rd rs1 rs2 | divu rd rs1 rs2 | rem rd rs1 rs2 | remu rd rs1 rs2 =>
    have h1 := hregs rs1 (by simp [sources])
    have h2 := hregs rs2 (by simp [sources])
    exact h.endsAlike_of_completeWith rfl rfl
      (by simp [exec, execMul, execDiv, execDivu, execRem, execRemu, h1, h2])
  | ecall | ebreak => exact .completed 0#32 s.pc s.mem rfl (by rw [← hpc, ← hmem]; rfl)
  | invalidInstruction | unknownOpcode => exact .raised _ rfl rfl

/-! ## A register an instruction does not name -/

/-- With another value in a register that is no source, an instruction finds the same inputs. -/
theorem sameInputs_writeReg {i : Instr} (s : State) {r : RegIdx} (v : Word) (h : r ∉ sources i) :
    SameInputs i s (s.writeReg r v) where
  regs _ hq := readReg_writeReg_other s v fun hqr => h (hqr ▸ hq)
  pc := writeReg_pc s r v
  mem := writeReg_mem s r v

/-- A write to a register other than the one an execute writes can be made before it or after it. -/
theorem update_writeReg (s : State) {rd r : RegIdx} (v u pc : Word) (m : Memory) (h : r ≠ rd) :
    ((s.writeReg r u).update rd v pc m).markRunning = (s.update rd v pc m).markRunning.writeReg r u := by
  simp only [State.update]
  rw [writeReg_comm s u v h.symm, writeReg_setPc, writeReg_setMem, writeReg_markRunning]

/-- The same for a register that is not the destination; a write to `x[0]` is none, before or after. -/
theorem update_written_writeReg {i : Instr} (s : State) {r : RegIdx} (v u pc : Word) (m : Memory)
    (h : destination i ≠ some r) :
    ((s.writeReg r u).update (written i) v pc m).markRunning
      = (s.update (written i) v pc m).markRunning.writeReg r u := by
  by_cases hr : r = 0#5
  · rw [hr, writeReg_zero, writeReg_zero]
  · refine update_writeReg s v u pc m fun hw => ?_
    cases hd : destination i with
    | none => exact hr (by simpa [written, hd] using hw)
    | some rd => exact h (by rw [hd, hw, written, hd, Option.getD_some])

/-- Settles O52: the execute ends alike with the other value there, and its writes commute with that value's. -/
theorem unnamedRegistersDoNotMatter : Obligations.UnnamedRegistersDoNotMatter := by
  intro i s r v hd hr
  cases (sameInputs_writeReg s v hr).endsAlike with
  | raised e hs hu =>
    refine ⟨fun t ht => absurd (hs.symm.trans ht) (raise_ne_next e s t), fun f hf => ⟨_, hu, ?_⟩⟩
    obtain rfl := (raise_eq_fault e s f).1 (hs.symm.trans hf)
    simp
  | completed x pc m hs hu =>
    refine ⟨fun t ht => ?_, fun f hf => absurd (hs.symm.trans hf) (complete_ne_fault _ f)⟩
    obtain rfl := (complete_eq_next _ t).1 (hs.symm.trans ht)
    rw [hu, complete_eq_next, update_written_writeReg s x v pc m hd]

/-! ## The indicator -/

/-- The state with another value of the indicator. -/
abbrev State.withPhase (s : State) (p : Phase) : State := { s with phase := p }

theorem writeReg_withPhase (s : State) (p : Phase) (rd : RegIdx) (v : Word) :
    (s.withPhase p).writeReg rd v = (s.writeReg rd v).withPhase p := by
  unfold State.writeReg; split <;> rfl

theorem update_withPhase (s : State) (p : Phase) (rd : RegIdx) (v pc : Word) (m : Memory) :
    ((s.withPhase p).update rd v pc m).markRunning = (s.update rd v pc m).markRunning := by
  rw [State.update, writeReg_withPhase s p]; rfl

/-- An execute that completes leaves the core running (R47). -/
theorem exec_phase {i : Instr} {s t : State} (he : exec i s = .next t) : t.phase = .running := by
  cases exec_effect he with
  | result _ _ _ ht | jump _ _ _ _ ht | branch _ _ _ ht | store _ _ _ _ _ ht | nothing ht =>
    rw [ht, markRunning_phase]

/-- With another value of the indicator an execute completes in the same state or raises the same error. -/
theorem exec_withPhase (i : Instr) (s : State) (p : Phase) :
    (∃ e, exec i s = raise e s ∧ exec i (s.withPhase p) = raise e (s.withPhase p))
      ∨ ∃ t, exec i s = .next t ∧ exec i (s.withPhase p) = .next t := by
  have same : SameInputs i s (s.withPhase p) := ⟨fun _ _ => rfl, rfl, rfl⟩
  cases same.endsAlike with
  | raised e hs hu => exact .inl ⟨e, hs, hu⟩
  | completed v pc m hs hu =>
    exact .inr ⟨_, hs, by rw [hu, complete_eq_next, update_withPhase s p]⟩

/-- A `step()` reads the pc and memory, and sets the indicator whatever it was. -/
theorem fetchDecodeAdvance_withPhase (s : State) (p : Phase) :
    fetchDecodeAdvance (s.withPhase p) = fetchDecodeAdvance s := rfl

/-- Two states that differ in the indicator at most. -/
def SameButPhase (s t : State) : Prop := t.regs = s.regs ∧ t.pc = s.pc ∧ t.mem = s.mem

/-- With another value of the indicator every operation of the host replies the same and leaves the same registers, pc
and memory. -/
theorem hostOp_withPhase (o : HostOp) (s : State) (p : Phase) :
    (hostOp o (s.withPhase p)).1 = (hostOp o s).1 ∧ SameButPhase (hostOp o s).2 (hostOp o (s.withPhase p)).2 := by
  have same : SameButPhase s (s.withPhase p) := ⟨rfl, rfl, rfl⟩
  cases o with
  | loadWord a => simp only [hostOp]; cases s.mem.loadWord a <;> exact ⟨rfl, same⟩
  | storeWord a v => simp only [hostOp]; cases s.mem.storeWord a v <;> exact ⟨rfl, rfl, rfl, rfl⟩
  | loadByte a => simp only [hostOp]; cases s.mem.loadByte a <;> exact ⟨rfl, same⟩
  | storeByte a b => simp only [hostOp]; cases s.mem.storeByte a b <;> exact ⟨rfl, rfl, rfl, rfl⟩
  | fetch a => simp only [hostOp]; cases s.mem.fetch a <;> exact ⟨rfl, same⟩
  | readReg i => exact ⟨rfl, same⟩
  | writeReg i v => simp only [hostOp, writeReg_withPhase s p]; exact ⟨trivial, rfl, rfl, rfl⟩
  | step =>
    simp only [hostOp, fetchDecodeAdvance_withPhase]
    cases fetchDecodeAdvance s <;> exact ⟨rfl, rfl, rfl, rfl⟩
  | execute d =>
    rcases exec_withPhase d s p with ⟨e, hs, hu⟩ | ⟨t, hs, hu⟩ <;> simp only [hostOp, hs, hu]
    · simpa [raise] using same
    · exact ⟨trivial, rfl, rfl, rfl⟩
  | readPc => exact ⟨rfl, same⟩
  | setPc v => exact ⟨rfl, rfl, rfl, rfl⟩

/-- Settles O51: execute, `step()` and the host's operations, each by its lemma on the state `withPhase p`. -/
theorem theIndicatorIsOnlyWritten : Obligations.TheIndicatorIsOnlyWritten := by
  refine ⟨around_phase, fun i s t => exec_phase, fun s t d h => ?_, fun i s p => ?_,
    fun s t d p h => (fetchDecodeAdvance_withPhase s p).trans h, hostOp_withPhase⟩
  · obtain ⟨w, -, -, rfl⟩ := fetchDecodeAdvance_ok h
    exact advance_phase s
  · rcases exec_withPhase i s p with ⟨e, hs, hu⟩ | ⟨u, hs, hu⟩
    · refine ⟨fun t ht => absurd (hs.symm.trans ht) (raise_ne_next e s t), fun f hf => ⟨_, hu, ?_⟩⟩
      simp [(raise_eq_fault e s f).1 (hs.symm.trans hf)]
    · refine ⟨fun t ht => hu.trans (hs.symm.trans ht), fun f hf => ?_⟩
      simp [hs] at hf

end Sys2Proof.Machine
end

section
/-! PROOFS for spec/20_memory.md: creation and size (R61, R62), the checked accessors (R63 to R67), the storage that
words and bytes share (R71), and STORE as the one writer of memory, seen by the next fetch (R73, R75, R81). -/

namespace Sys2Proof.Machine

/-! ## Creation -/

theorem memNew_of_inside {maxSize size : Nat} (h : 1 ≤ size ∧ size ≤ maxSize) :
    memNew maxSize size = .ok ⟨size, []⟩ := by
  rw [memNew, if_neg (by omega)]

/-- Outside the capacity creation fails, with the free payload of D21 (log 19). -/
theorem memNew_of_outside {maxSize size : Nat} (h : ¬(1 ≤ size ∧ size ≤ maxSize)) :
    memNew maxSize size
      = .error (.outOfBounds (Config.memNewErrorAddr maxSize size) (Config.memNewErrorSize maxSize size)) := by
  rw [memNew, if_pos (by omega)]

theorem memNew_ok {maxSize size : Nat} {m : Memory} (h : memNew maxSize size = .ok m) :
    (1 ≤ size ∧ size ≤ maxSize) ∧ m = ⟨size, []⟩ := by
  by_cases hs : 1 ≤ size ∧ size ≤ maxSize
  · rw [memNew_of_inside hs] at h
    exact ⟨hs, (Except.ok.inj h).symm⟩
  · simp [memNew_of_outside hs] at h

theorem construct_of_memNew_ok {maxSize size : Nat} {m : Memory} (h : memNew maxSize size = .ok m) :
    construct maxSize size = .ok (constructWith m) := by
  simp only [construct, h, constructWith]

theorem construct_of_memNew_error {maxSize size : Nat} {e : MemoryError} (h : memNew maxSize size = .error e) :
    construct maxSize size = .error e := by
  simp only [construct, h]

/-- A core that is constructed is the core around a new memory. -/
theorem construct_ok {maxSize size : Nat} {s : State} (h : construct maxSize size = .ok s) :
    ∃ m, memNew maxSize size = .ok m ∧ s = constructWith m := by
  cases hm : memNew maxSize size with
  | error e => simp [construct_of_memNew_error hm] at h
  | ok m =>
    rw [construct_of_memNew_ok hm] at h
    exact ⟨m, rfl, (Except.ok.inj h).symm⟩

/-- Settles O4, inside and outside the capacity. -/
theorem constructionFailsExactlyOutsideCapacity : Obligations.ConstructionFailsExactlyOutsideCapacity := fun _ size =>
  ⟨fun h => ⟨⟨size, []⟩, memNew_of_inside h, rfl, fun _ => rfl, construct_of_memNew_ok (memNew_of_inside h)⟩,
    fun h => ⟨_, _, memNew_of_outside h, construct_of_memNew_error (memNew_of_outside h)⟩⟩

/-! ## The size never changes -/

theorem storeByte_size {m m' : Memory} {a : Word} {b : Byte} (h : m.storeByte a b = .ok m') : m'.size = m.size := by
  obtain ⟨-, rfl⟩ := storeByte_ok_iff.1 h
  exact putByte_size m a.toNat b

theorem exec_mem_size {i : Instr} {s t : State} (h : exec i s = .next t) : t.mem.size = s.mem.size := by
  cases exec_effect h with
  | result rd v _ ht => simp [ht]
  | jump rd target _ _ ht => simp [ht]
  | branch target _ _ ht => simp [ht]
  | store a v m _ hm ht => simp [ht, storeWord_size hm]
  | nothing ht => simp [ht]

theorem hostOp_mem_size (o : HostOp) (s : State) : (hostOp o s).2.mem.size = s.mem.size := by
  rcases hostOp_state_cases o s with
    he | ⟨m, a, v, hm, he⟩ | ⟨m, a, b, hm, he⟩ | ⟨i, v, he⟩ | ⟨v, he⟩ | he | ⟨d, t, hx, he⟩ <;> rw [he]
  · exact storeWord_size hm
  · exact storeByte_size hm
  · rw [writeReg_mem]
  · rw [setPc_mem]
  · rw [advance_mem]
  · exact exec_mem_size hx

theorem step_mem_size {s t : State} (h : step s = .next t) : t.mem.size = s.mem.size := by
  obtain ⟨w, i, -, -, hx⟩ := step_next h
  rw [exec_mem_size hx, advance_mem]

theorem step_fault_mem_size {s : State} {f : Fault} (h : step s = .fault f) : f.after.mem.size = s.mem.size := by
  rcases step_fault_after h with he | he
  · rw [he]
  · rw [he, advance_mem]

/-- Whatever a load ends in, the memory it leaves keeps the size. -/
theorem loadElf_size {parseOk : List Byte → Bool} {file : Option (List Byte)} {m : Memory} :
    (∀ e m', loadElf parseOk file m = .loaded e m' → m'.size = m.size)
      ∧ ∀ e m', loadElf parseOk file m = .failed e m' → m'.size = m.size := by
  rcases loadElf_cases parseOk file m with ⟨-, he⟩ | ⟨buf, -, ⟨-, he⟩ | ⟨-, -, he⟩ | ⟨-, -, he⟩⟩
  · simp [he]
  · simp [he]
  · simp [he]
  · obtain ⟨loaded, failed⟩ := loadSegments_keeps (buf := buf) (os := programHeaderOffsets buf) (m := m)
    rw [he]
    refine ⟨fun e m' h => ?_, fun e m' h => (failed e m' h).1⟩
    obtain ⟨-, size, -⟩ := loaded e m' h
    exact size

/-- The capacity invariant speaks of the memory's size only. -/
theorem State.Fits.of_size_eq {maxSize : Nat} {s t : State} (h : s.Fits maxSize) (hs : t.mem.size = s.mem.size) :
    t.Fits maxSize := by
  rwa [State.Fits, hs]

theorem memNew_size_within {maxSize size : Nat} {m : Memory} (h : memNew maxSize size = .ok m) :
    1 ≤ m.size ∧ m.size ≤ maxSize := by
  obtain ⟨hs, rfl⟩ := memNew_ok h
  exact hs

/-- Settles O5: a new memory is within the capacity, and nothing changes a memory's size. -/
theorem memorySizeStaysWithinCapacity : Obligations.MemorySizeStaysWithinCapacity := by
  refine fun maxSize => ⟨fun size m => memNew_size_within, fun size s h => ?_,
    fun o s hs => hs.of_size_eq (hostOp_mem_size o s), fun s t hs h => hs.of_size_eq (step_mem_size h),
    fun s f hs h => hs.of_size_eq (step_fault_mem_size h), fun parseOk file m m' e hm h => ?_,
    fun parseOk file m m' e hm h => ?_⟩
  · obtain ⟨m, hm, rfl⟩ := construct_ok h
    exact memNew_size_within hm
  · rwa [loadElf_size.1 e m' h]
  · rwa [loadElf_size.2 e m' h]

/-! ## Admitted and refused accesses -/

theorem wordError_of_admitted {m : Memory} {a : Word} (h : Admitted m a) : m.wordError a = none :=
  (wordError_none_iff m a).2 h

theorem wordError_of_not_admitted {m : Memory} {a : Word} (h : ¬Admitted m a) : ∃ e, m.wordError a = some e :=
  Option.ne_none_iff_exists'.1 fun hn => h ((wordError_none_iff m a).1 hn)

theorem loadWord_of_admitted {m : Memory} {a : Word} (h : Admitted m a) : m.loadWord a = .ok (m.wordAt a.toNat) :=
  loadWord_ok_iff.2 ⟨wordError_of_admitted h, rfl⟩

theorem storeWord_of_admitted {m : Memory} {a : Word} (v : Word) (h : Admitted m a) :
    m.storeWord a v = .ok (m.putWord a.toNat v) :=
  storeWord_ok_iff.2 ⟨wordError_of_admitted h, rfl⟩

/-- An access that the word check refuses raises its error, be it a read, a write or a fetch. -/
theorem accessors_of_wordError {m : Memory} {a : Word} {e : MemoryError} (v : Word) (h : m.wordError a = some e) :
    m.loadWord a = .error e ∧ m.storeWord a v = .error e ∧ m.fetch a = .error e :=
  ⟨loadWord_error_iff.2 h, storeWord_error_iff.2 h, loadWord_error_iff.2 h⟩

theorem loadByte_of_lt {m : Memory} {a : Word} (h : a.toNat < m.size) : m.loadByte a = .ok (m.byteAt a.toNat) := by
  simp only [Memory.loadByte, Memory.byteError, if_neg (Nat.not_le.2 h)]

theorem loadByte_of_size_le {m : Memory} {a : Word} (h : m.size ≤ a.toNat) :
    m.loadByte a = .error (.outOfBounds a m.size) := by
  simp only [Memory.loadByte, Memory.byteError, if_pos h]

theorem storeByte_of_lt {m : Memory} {a : Word} (b : Byte) (h : a.toNat < m.size) :
    m.storeByte a b = .ok (m.putByte a.toNat b) :=
  storeByte_ok_iff.2 ⟨h, rfl⟩

theorem storeByte_of_size_le {m : Memory} {a : Word} (b : Byte) (h : m.size ≤ a.toNat) :
    m.storeByte a b = .error (.outOfBounds a m.size) := by
  simp only [Memory.storeByte, Memory.byteError, if_pos h]

/-- Settles O6: the three refusals of the word check in its order, and the accesses it admits. -/
theorem wordAccessIsCheckedInOrder : Obligations.WordAccessIsCheckedInOrder := by
  refine fun m a v => ⟨fun h => accessors_of_wordError v (wordError_of_size_le h),
    fun h ha => accessors_of_wordError v (wordError_of_misaligned h ha), fun h ha hs => ?_, fun h ha => ?_⟩
  · obtain ⟨load, store, fetch⟩ := accessors_of_wordError v (wordError_of_span h ha hs)
    exact ⟨load, store, fetch, by omega, fun b hb hbs => by omega⟩
  · have load := loadWord_of_admitted ⟨h, ha⟩
    exact ⟨⟨_, load⟩, ⟨_, storeWord_of_admitted v ⟨h, ha⟩⟩, _, load⟩

/-! ## The host's accessors -/

section
variable {s : State} {a : Word}

theorem hostOp_loadWord_ok {v : Word} (h : s.mem.loadWord a = .ok v) : hostOp (.loadWord a) s = (.word v, s) := by
  simp only [hostOp, h]

theorem hostOp_loadWord_error {e : MemoryError} (h : s.mem.loadWord a = .error e) :
    hostOp (.loadWord a) s = (.memoryError e, s) := by
  simp only [hostOp, h]

theorem hostOp_storeWord_ok {v : Word} {m : Memory} (h : s.mem.storeWord a v = .ok m) :
    hostOp (.storeWord a v) s = (.unit, s.setMem m) := by
  simp only [hostOp, h]

theorem hostOp_storeWord_error {v : Word} {e : MemoryError} (h : s.mem.storeWord a v = .error e) :
    hostOp (.storeWord a v) s = (.memoryError e, s) := by
  simp only [hostOp, h]

theorem hostOp_loadByte_ok {b : Byte} (h : s.mem.loadByte a = .ok b) : hostOp (.loadByte a) s = (.byte b, s) := by
  simp only [hostOp, h]

theorem hostOp_loadByte_error {e : MemoryError} (h : s.mem.loadByte a = .error e) :
    hostOp (.loadByte a) s = (.memoryError e, s) := by
  simp only [hostOp, h]

theorem hostOp_storeByte_ok {b : Byte} {m : Memory} (h : s.mem.storeByte a b = .ok m) :
    hostOp (.storeByte a b) s = (.unit, s.setMem m) := by
  simp only [hostOp, h]

theorem hostOp_storeByte_error {b : Byte} {e : MemoryError} (h : s.mem.storeByte a b = .error e) :
    hostOp (.storeByte a b) s = (.memoryError e, s) := by
  simp only [hostOp, h]

end

/-- Settles O7: the word at an admitted address is its four bytes, the lowest address last. -/
theorem loadWordReadsLittleEndian : Obligations.LoadWordReadsLittleEndian := by
  refine fun s a => ⟨fun h => hostOp_loadWord_ok (loadWord_of_admitted h), fun h => ?_⟩
  obtain ⟨e, he⟩ := wordError_of_not_admitted h
  exact ⟨e, he, hostOp_loadWord_error (loadWord_error_iff.2 he)⟩

/-! ## The bytes of a stored word -/

theorem byteAt_putWord_inside {m : Memory} {a k : Nat} (v : Word) (h : m.wf) (ha : a + 4 ≤ m.size) (hk : k < 4) :
    (m.putWord a v).byteAt (a + k) = byteOfWord v k := by
  rw [byteAt_putWord v _ h ha]
  interval_cases k <;> simp

theorem byteAt_putWord_outside {m : Memory} {a k : Nat} (v : Word) (h : m.wf) (ha : a + 4 ≤ m.size)
    (hk : k < a ∨ a + 4 ≤ k) : (m.putWord a v).byteAt k = m.byteAt k := by
  rw [byteAt_putWord v _ h ha, if_neg (by omega), if_neg (by omega), if_neg (by omega), if_neg (by omega)]

/-- A stored word is what a load of its address returns. -/
theorem loadWord_putWord {m : Memory} {a : Word} (v : Word) (h : m.wf) (ha : Admitted m a) :
    (m.putWord a.toNat v).loadWord a = .ok v := by
  have ha' : Admitted (m.putWord a.toNat v) a := ha
  rw [loadWord_of_admitted ha', wordAt_putWord v h ha.1]

/-- Settles O8: the four bytes of `putWord` and its frame. -/
theorem storeWordWritesFourBytes : Obligations.StoreWordWritesFourBytes := by
  refine fun s a v hwf => ⟨fun h => ?_, fun h => ?_⟩
  · have inside := fun k => byteAt_putWord_inside (k := k) v hwf h.1
    exact ⟨_, hostOp_storeWord_ok (storeWord_of_admitted v h), inside 0 (by decide), inside 1 (by decide),
      inside 2 (by decide), inside 3 (by decide), fun k => byteAt_putWord_outside v hwf h.1,
      putWord_size s.mem a.toNat v, setMem_readReg s _, setMem_pc s _⟩
  · obtain ⟨e, he⟩ := wordError_of_not_admitted h
    exact ⟨e, he, hostOp_storeWord_error (storeWord_error_iff.2 he)⟩

/-- Settles O9: the byte accessors on both sides of their bound. -/
theorem byteAccessorsCheckBoundsOnly : Obligations.ByteAccessorsCheckBoundsOnly := by
  refine fun s a b hwf => ⟨fun h => ⟨hostOp_loadByte_error (loadByte_of_size_le h),
    hostOp_storeByte_error (storeByte_of_size_le b h)⟩, fun h => ⟨hostOp_loadByte_ok (loadByte_of_lt h), _,
    hostOp_storeByte_ok (storeByte_of_lt b h), ?_, fun k hk => ?_, putByte_size s.mem a.toNat b, setMem_readReg s _,
    setMem_pc s _⟩⟩
  · rw [setMem_mem, byteAt_putByte _ _ _ hwf, if_pos rfl]
  · rw [setMem_mem, byteAt_putByte _ _ _ hwf, if_neg hk]

/-! ## Words and bytes are one storage -/

/-- Bit `i` of the word at `a` is bit `i % 8` of the byte at `a + i / 8` (R70). -/
theorem getLsbD_wordAt (m : Memory) (a : Nat) {i : Nat} (hi : i < 32) :
    (m.wordAt a).getLsbD i = (m.byteAt (a + i / 8)).getLsbD (i % 8) := by
  change BitVec.getLsbD (w := 8 + 8 + 8 + 8) (_ ++ _ ++ _ ++ _) i = _
  simp only [BitVec.getLsbD_append]
  have hq : i / 8 < 4 := by omega
  have hmod : i % 8 = i - 8 * (i / 8) := by omega
  rw [hmod]
  generalize hk : i / 8 = k at hq ⊢
  interval_cases k
  · rw [if_pos (by omega)]; rfl
  · rw [if_neg (by omega), if_pos (by omega)]
  · rw [if_neg (by omega), if_neg (by omega), if_pos (by omega)]; rfl
  · rw [if_neg (by omega), if_neg (by omega), if_neg (by omega)]; rfl

/-- The address of a byte of an admitted word does not wrap. -/
theorem toNat_add_of_admitted {m : Memory} {a : Word} {k : Nat} (h : m.wf) (ha : Admitted m a) (hk : k < 4) :
    (a + BitVec.ofNat 32 k).toNat = a.toNat + k := by
  obtain ⟨-, hsize, -, -⟩ := h
  obtain ⟨hspan, -⟩ := ha
  rw [BitVec.toNat_add, BitVec.toNat_ofNat]
  omega

/-- A byte stored inside a word replaces its eight bits of the word and no others. -/
theorem getLsbD_wordAt_putByte {m : Memory} (a k : Nat) (b : Byte) (h : m.wf) {i : Nat} (hi : i < 32) :
    ((m.putByte (a + k) b).wordAt a).getLsbD i
      = if 8 * k ≤ i ∧ i < 8 * k + 8 then b.getLsbD (i - 8 * k) else (m.wordAt a).getLsbD i := by
  rw [getLsbD_wordAt _ _ hi, getLsbD_wordAt _ _ hi, byteAt_putByte _ _ _ h]
  by_cases hk : i / 8 = k
  · have hmod : i % 8 = i - 8 * k := by omega
    rw [if_pos (by omega), if_pos (by omega), hmod]
  · rw [if_neg (by omega), if_neg (by omega)]

/-- Settles O10: each byte of a stored word, and each bit of a word after a byte of it is stored. -/
theorem wordsAndBytesShareStorage : Obligations.WordsAndBytesShareStorage := by
  intro m a v k b hwf ha hk
  have hto := toNat_add_of_admitted hwf ha hk
  have hlt : (a + BitVec.ofNat 32 k).toNat < m.size := by
    obtain ⟨hspan, -⟩ := ha
    omega
  refine ⟨⟨_, storeWord_of_admitted v ha, loadWord_putWord v hwf ha, ?_⟩, _, _, _, storeByte_of_lt b hlt,
    loadWord_of_admitted ha, ?_, fun i => getLsbD_wordAt_putByte a.toNat k b hwf⟩
  · have hlt' : (a + BitVec.ofNat 32 k).toNat < (m.putWord a.toNat v).size := hlt
    rw [loadByte_of_lt hlt', hto, byteAt_putWord_inside v hwf ha.1 hk, byteOfWord]
  · have ha' : Admitted (m.putByte (a.toNat + k) b) a := ha
    rw [hto, loadWord_of_admitted ha']

/-- Settles O12: canonical memories read alike above their size too, so `cells_ext` applies. -/
theorem canonicalMemoriesWithEqualBytesAreEqual : Obligations.CanonicalMemoriesWithEqualBytesAreEqual := by
  intro m₁ m₂ h₁ h₂ hsize hbytes
  have hall : ∀ a, m₁.byteAt a = m₂.byteAt a := fun a => by
    by_cases ha : a < m₁.size
    · exact hbytes a ha
    · rw [byteAt_above h₁ (by omega), byteAt_above h₂ (by omega)]
  obtain ⟨-, -, hsorted₁, hlisted₁⟩ := h₁
  obtain ⟨-, -, hsorted₂, hlisted₂⟩ := h₂
  have hcells : m₁.cells = m₂.cells :=
    cells_ext hsorted₁ hsorted₂ (fun c hc => (hlisted₁ c hc).2) (fun c hc => (hlisted₂ c hc).2) hall
  cases m₁
  cases m₂
  rw [Memory.mk.injEq]
  exact ⟨hsize, hcells⟩

/-! ## STORE is the one writer, and the next fetch sees it -/

theorem exec_mem_of_not_storesWord {i : Instr} {s t : State} (h : exec i s = .next t) (hi : storesWord i = false) :
    t.mem = s.mem := by
  cases exec_effect h with
  | result rd v _ ht => simp [ht]
  | jump rd target _ _ ht => simp [ht]
  | branch target _ _ ht => simp [ht]
  | store a v m hst _ _ => simp [hst] at hi
  | nothing ht => simp [ht]

/-- A STORE that completes had an admitted address, and its memory is the old one with the word put there. -/
theorem exec_store_next {rs1 rs2 : RegIdx} {imm : Word} {s t : State} (h : exec (.store rs1 rs2 imm) s = .next t) :
    Admitted s.mem (effectiveAddress rs1 imm s)
      ∧ t.mem = s.mem.putWord (effectiveAddress rs1 imm s).toNat (s.readReg rs2) := by
  rcases execStore_cases rs1 rs2 imm s with ⟨hn, he⟩ | ⟨e, -, he⟩
  · have ht := (complete_eq_next ..).1 (he.symm.trans h)
    exact ⟨(wordError_none_iff ..).1 hn, by simp [ht]⟩
  · exact absurd (he.symm.trans h) (raise_ne_next _ _ _)

/-- Settles O45: an execute that stores nothing keeps memory as it is, and a STORE that completes puts one word. -/
theorem onlyStoreChangesMemory : Obligations.OnlyStoreChangesMemory := by
  refine ⟨fun i s t h hi => ?_, fun rs1 rs2 imm s t hwf h => ?_⟩
  · have hmem := exec_mem_of_not_storesWord h hi
    exact ⟨by rw [hmem], fun a => by rw [hmem]⟩
  · obtain ⟨⟨hspan, -⟩, hmem⟩ := exec_store_next h
    rw [hmem]
    exact ⟨rfl, hspan, putWord_size .., fun a => byteAt_putWord_outside _ hwf hspan⟩

/-- Settles O50: the stored word is loaded at its address, so it is what a cycle there fetches and decodes. -/
theorem aStoreIsSeenByTheNextFetch : Obligations.AStoreIsSeenByTheNextFetch := by
  intro rs1 rs2 imm s t hwf h
  obtain ⟨hadm, hmem⟩ := exec_store_next h
  have hfetch : t.mem.fetch (s.readReg rs1 + imm) = .ok (s.readReg rs2) := by
    rw [hmem]
    exact loadWord_putWord _ hwf hadm
  refine ⟨hfetch, fun i hpc hd => step_of_decode_ok ?_ hd⟩
  rw [State.fetch, hpc]
  exact hfetch

end Sys2Proof.Machine
end

section
/-! PROOFS for spec/30_encoding.md: the bits of the five immediates (R103 to R107), what each family of words decodes to
(R110 to R121), the decode errors (R119, R121 to R124), the bits that the decoder ignores (R127), and the words that
`encode` writes. -/

namespace Sys2Proof.Machine

/-! ## Bits of the fields -/

section
variable (w : Word) {i : Nat}

theorem getLsbD_rdOf (hi : i < 5) : (rdOf w).getLsbD i = w.getLsbD (7 + i) := by simp [rdOf, hi]

theorem getLsbD_rs1Of (hi : i < 5) : (rs1Of w).getLsbD i = w.getLsbD (15 + i) := by simp [rs1Of, hi]

theorem getLsbD_rs2Of (hi : i < 5) : (rs2Of w).getLsbD i = w.getLsbD (20 + i) := by simp [rs2Of, hi]

/-- The shift amount stands where rs2 does (R108; log 9). -/
theorem shamtOf_eq_rs2Of : shamtOf w = rs2Of w := rfl

theorem getLsbD_shamtOf (hi : i < 5) : (shamtOf w).getLsbD i = w.getLsbD (20 + i) := getLsbD_rs2Of w hi

theorem getLsbD_funct7Of (hi : i < 7) : (funct7Of w).getLsbD i = w.getLsbD (25 + i) := by simp [funct7Of, hi]

end

/-! ## Bits of the immediates -/

/-- A sign-extended value repeats its own last bit. -/
theorem getLsbD_signExtend_succ {n i : Nat} (v : BitVec (n + 1)) (hi : i < 32) :
    (v.signExtend 32).getLsbD i = if i < n then v.getLsbD i else v.getLsbD n := by
  rw [BitVec.getLsbD_signExtend, decide_eq_true hi, Bool.true_and, BitVec.msb_eq_getLsbD_last]
  grind

section
variable (w : Word) {i : Nat} (hi : i < 32)
include hi

theorem getLsbD_immI : (immI w).getLsbD i = if i < 12 then w.getLsbD (20 + i) else w.getLsbD 31 := by
  rw [immI, getLsbD_signExtend_succ _ hi]
  simp only [BitVec.getLsbD_extractLsb']
  grind

theorem getLsbD_immS :
    (immS w).getLsbD i
      = if i < 5 then w.getLsbD (7 + i) else if i < 12 then w.getLsbD (20 + i) else w.getLsbD 31 := by
  rw [immS, getLsbD_signExtend_succ _ hi]
  simp only [BitVec.getLsbD_append, BitVec.getLsbD_extractLsb']
  grind

theorem getLsbD_immU : (immU w).getLsbD i = if i < 12 then false else w.getLsbD i := by
  change BitVec.getLsbD (w := 20 + 12) (_ ++ 0#12) i = _
  simp only [BitVec.getLsbD_append, BitVec.getLsbD_extractLsb', BitVec.getLsbD_zero]
  grind

theorem getLsbD_immB :
    (immB w).getLsbD i
      = if i = 0 then false else if i < 5 then w.getLsbD (7 + i) else if i < 11 then w.getLsbD (20 + i)
        else if i = 11 then w.getLsbD 7 else w.getLsbD 31 := by
  rw [immB, getLsbD_signExtend_succ _ hi]
  simp only [BitVec.getLsbD_append, BitVec.getLsbD_extractLsb', BitVec.getLsbD_zero]
  grind

theorem getLsbD_immJ :
    (immJ w).getLsbD i
      = if i = 0 then false else if i < 11 then w.getLsbD (20 + i) else if i = 11 then w.getLsbD 20
        else if i < 20 then w.getLsbD i else w.getLsbD 31 := by
  rw [immJ, getLsbD_signExtend_succ _ hi]
  simp only [BitVec.getLsbD_append, BitVec.getLsbD_extractLsb', BitVec.getLsbD_zero]
  grind

end

section
variable {imm : Word}

theorem immFits12_iff : immFits12 imm = true ↔ -2048 ≤ imm.toInt ∧ imm.toInt ≤ 2047 := by
  simp [immFits12]

theorem immFitsB_iff : immFitsB imm = true ↔ -4096 ≤ imm.toInt ∧ imm.toInt ≤ 4094 ∧ imm.toInt % 2 = 0 := by
  simp [immFitsB, and_assoc]

theorem immFitsJ_iff : immFitsJ imm = true ↔ -1048576 ≤ imm.toInt ∧ imm.toInt ≤ 1048574 ∧ imm.toInt % 2 = 0 := by
  simp [immFitsJ, and_assoc]

end

/-- Settles O13: the bits of each immediate, and the range its `_fits` law gives. -/
theorem immediatesTakeTheStatedBits : Obligations.ImmediatesTakeTheStatedBits := fun w _ hi =>
  have ⟨loI, hiI⟩ := immFits12_iff.1 (immI_fits w)
  have ⟨loS, hiS⟩ := immFits12_iff.1 (immS_fits w)
  ⟨getLsbD_immI w hi, getLsbD_immS w hi, getLsbD_immU w hi, loI, hiI, loS, hiS⟩

/-- Settles O14: the bits of each immediate, and the range and evenness its `_fits` law gives. -/
theorem branchAndJumpImmediatesTakeTheChosenBits : Obligations.BranchAndJumpImmediatesTakeTheChosenBits := fun w _ hi =>
  have ⟨loB, hiB, evenB⟩ := immFitsB_iff.1 (immB_fits w)
  have ⟨loJ, hiJ, evenJ⟩ := immFitsJ_iff.1 (immJ_fits w)
  ⟨getLsbD_immB w hi, getLsbD_immJ w hi, loB, hiB, evenB, loJ, hiJ, evenJ⟩

/-! ## What each family decodes to -/

section
variable {w : Word}

theorem decode_lui (h : opcodeOf w = 0x37#7) : decode w = .ok (.lui (rdOf w) (immU w)) := by
  simp [decode, h]

theorem decode_auipc (h : opcodeOf w = 0x17#7) : decode w = .ok (.auipc (rdOf w) (immU w)) := by
  simp [decode, h]

theorem decode_jal (h : opcodeOf w = 0x6F#7) : decode w = .ok (.jal (rdOf w) (immJ w)) := by
  simp [decode, h]

theorem decode_jalr (h : opcodeOf w = 0x67#7) : decode w = .ok (.jalr (rdOf w) (rs1Of w) (immI w)) := by
  simp [decode, h]

theorem decode_load (h : opcodeOf w = 0x03#7) : decode w = .ok (.load (rdOf w) (rs1Of w) (immI w)) := by
  simp [decode, h]

theorem decode_eq_decodeOpImm (h : opcodeOf w = 0x13#7) : decode w = .ok (decodeOpImm w) := by
  simp [decode, h]

theorem decode_shiftImm (h : opcodeOf w = 0x13#7) (h3 : funct3Of w = 1#3 ∨ funct3Of w = 5#3) :
    decode w = .ok (.shiftImm (rdOf w) (rs1Of w) (shamtOf w)
      (decide (funct3Of w = 5#3 ∧ funct7Of w = 0x20#7))) := by
  rw [decode_eq_decodeOpImm h, decodeOpImm, if_pos h3]

theorem decode_opImm (h : opcodeOf w = 0x13#7) (h1 : funct3Of w ≠ 1#3) (h5 : funct3Of w ≠ 5#3) :
    decode w = .ok (.opImm (rdOf w) (rs1Of w) (immI w)) := by
  simp [decode_eq_decodeOpImm h, decodeOpImm, h1, h5]

theorem decode_store (h : opcodeOf w = 0x23#7) : decode w = .ok (.store (rs1Of w) (rs2Of w) (immS w)) := by
  simp [decode, h]

theorem decode_branch (h : opcodeOf w = 0x63#7) : decode w = .ok (.branch (rs1Of w) (rs2Of w) (immB w)) := by
  simp [decode, h]

/-- Opcodes 0x33 and 0x3B decode alike. -/
theorem decode_eq_decodeOp (h : opcodeOf w = 0x33#7 ∨ opcodeOf w = 0x3B#7) : decode w = decodeOp w := by
  rcases h with h | h <;> simp [decode, h]

theorem decode_eq_decodeSystem (h : opcodeOf w = 0x73#7) : decode w = decodeSystem w := by
  simp [decode, h]

theorem decode_ecall (h : opcodeOf w = 0x73#7) (h3 : funct3Of w = 0#3) (hi : imm12Of w = 0#12) :
    decode w = .ok .ecall := by
  simp [decode_eq_decodeSystem h, decodeSystem, h3, hi]

theorem decode_ebreak (h : opcodeOf w = 0x73#7) (h3 : funct3Of w = 0#3) (hi : imm12Of w = 1#12) :
    decode w = .ok .ebreak := by
  simp [decode_eq_decodeSystem h, decodeSystem, h3, hi]

section
variable (h : opcodeOf w = 0x33#7 ∨ opcodeOf w = 0x3B#7)
include h

theorem decode_op (h7 : funct7Of w ≠ 0x01#7) :
    decode w = .ok (.op (rdOf w) (rs1Of w) (rs2Of w) (funct7Of w)) := by
  rw [decode_eq_decodeOp h, decodeOp, if_neg h7]

variable (h7 : funct7Of w = 0x01#7)
include h7

theorem decode_mul (h3 : funct3Of w = 0#3) : decode w = .ok (.mul (rdOf w) (rs1Of w) (rs2Of w)) := by
  simp [decode_eq_decodeOp h, decodeOp, h7, h3]

theorem decode_div (h3 : funct3Of w = 4#3) : decode w = .ok (.div (rdOf w) (rs1Of w) (rs2Of w)) := by
  simp [decode_eq_decodeOp h, decodeOp, h7, h3]

theorem decode_divu (h3 : funct3Of w = 5#3) : decode w = .ok (.divu (rdOf w) (rs1Of w) (rs2Of w)) := by
  simp [decode_eq_decodeOp h, decodeOp, h7, h3]

theorem decode_rem (h3 : funct3Of w = 6#3) : decode w = .ok (.rem (rdOf w) (rs1Of w) (rs2Of w)) := by
  simp [decode_eq_decodeOp h, decodeOp, h7, h3]

theorem decode_remu (h3 : funct3Of w = 7#3) : decode w = .ok (.remu (rdOf w) (rs1Of w) (rs2Of w)) := by
  simp [decode_eq_decodeOp h, decodeOp, h7, h3]

end
end

/-- Settles O15: one equation of the decoder per family, and the bits of the register fields. -/
theorem decoderReadsTheFieldsOfEveryFamily : Obligations.DecoderReadsTheFieldsOfEveryFamily := fun w =>
  ⟨decode_lui, decode_auipc, decode_jal, decode_jalr, decode_load, decode_shiftImm, decode_opImm, decode_store,
    decode_branch,
    fun h => ⟨decode_op h,
      fun h7 => ⟨decode_mul h h7, decode_div h h7, decode_divu h h7, decode_rem h h7, decode_remu h h7⟩⟩,
    fun h h3 => ⟨decode_ecall h h3, decode_ebreak h h3⟩,
    fun _ hi => ⟨getLsbD_rdOf w hi, getLsbD_rs1Of w hi, getLsbD_rs2Of w hi, getLsbD_shamtOf w hi⟩⟩

/-! ## The decode errors -/

theorem isIllegalSystem_iff (w : Word) :
    isIllegalSystem w = true
      ↔ opcodeOf w = 0x73#7 ∧ ¬(funct3Of w = 0#3 ∧ (imm12Of w = 0#12 ∨ imm12Of w = 1#12)) := by
  simp [isIllegalSystem, opcodeOf, funct3Of, imm12Of, imp_iff_not_or]

theorem isIllegalMulDiv_iff (w : Word) :
    isIllegalMulDiv w = true
      ↔ (opcodeOf w = 0x33#7 ∨ opcodeOf w = 0x3B#7) ∧ funct7Of w = 0x01#7
        ∧ (funct3Of w = 1#3 ∨ funct3Of w = 2#3 ∨ funct3Of w = 3#3) := by
  simp [isIllegalMulDiv, opcodeOf, funct3Of, funct7Of, and_assoc, or_assoc]

theorem decodeOp_error_iff (w : Word) (e : DecodeError) :
    decodeOp w = .error e
      ↔ e = .invalidInstruction w ∧ funct7Of w = 0x01#7
        ∧ (funct3Of w = 1#3 ∨ funct3Of w = 2#3 ∨ funct3Of w = 3#3) := by
  rcases decodeOp_cases w with ⟨h7, hd⟩ | ⟨h7, h3, hd⟩ | ⟨h7, h3, hd⟩ | ⟨h7, h3, hd⟩ | ⟨h7, h3, hd⟩ | ⟨h7, h3, hd⟩
    | ⟨h7, h3, hd⟩
  · simp [hd, h7]
  iterate 5
    · simp [hd, h3]
  · simp [hd, h7, h3, eq_comm (a := e)]

theorem decodeSystem_error_iff (w : Word) (e : DecodeError) :
    decodeSystem w = .error e
      ↔ e = .invalidInstruction w ∧ ¬(funct3Of w = 0#3 ∧ (imm12Of w = 0#12 ∨ imm12Of w = 1#12)) := by
  rcases decodeSystem_cases w with ⟨h3, hi, hd⟩ | ⟨h3, hi, hd⟩ | ⟨hn, hd⟩
  · simp [hd, h3, hi]
  · simp [hd, h3, hi]
  · simp only [hd, hn, Except.error.injEq, not_false_eq_true, and_true, eq_comm (a := e)]

/-- R124: the words that raise a decode error, and the error of each. -/
theorem decode_error_iff (w : Word) (e : DecodeError) :
    decode w = .error e
      ↔ (e = .unknownOpcode (opcodeOf w) ∧ opcodeOf w ∉ knownOpcodes)
        ∨ (e = .invalidInstruction w ∧ (isIllegalSystem w = true ∨ isIllegalMulDiv w = true)) := by
  simp only [isIllegalSystem_iff, isIllegalMulDiv_iff]
  rcases decode_cases w with ⟨h, hd⟩ | ⟨h, hd⟩ | ⟨h, hd⟩ | ⟨h, hd⟩ | ⟨h, hd⟩ | ⟨h, hd⟩ | ⟨h, hd⟩ | ⟨h, hd⟩
    | ⟨h, hd⟩ | ⟨h, hd⟩ | ⟨h, hd⟩
  -- the eight families without an illegal word
  iterate 8
    · simp [hd, h, knownOpcodes]
  · rw [hd, decodeOp_error_iff]
    rcases h with h | h <;> simp [h, knownOpcodes]
  · rw [hd, decodeSystem_error_iff]
    simp [h, knownOpcodes]
  · simp only [knownOpcodes, List.mem_cons, List.not_mem_nil, or_false, not_or] at h
    simp [hd, h, knownOpcodes, eq_comm (a := e)]

theorem decode_unknownOpcode_iff (w : Word) :
    decode w = .error (.unknownOpcode (opcodeOf w)) ↔ opcodeOf w ∉ knownOpcodes := by
  simp [decode_error_iff]

theorem decode_invalidInstruction_iff (w : Word) :
    decode w = .error (.invalidInstruction w) ↔ isIllegalSystem w = true ∨ isIllegalMulDiv w = true := by
  simp [decode_error_iff]

/-- Settles O17: the three clauses are read off `decode_error_iff`. -/
theorem decodeErrorsAreExactlyTheIllegalWords : Obligations.DecodeErrorsAreExactlyTheIllegalWords := by
  refine fun w => ⟨decode_unknownOpcode_iff w, ?_, fun e h => ?_⟩
  · rw [decode_invalidInstruction_iff, isIllegalSystem_iff, isIllegalMulDiv_iff]
  · exact ((decode_error_iff w e).1 h).imp And.left And.left

/-! ## The bits that the decoder ignores -/

section
variable {w w' : Word}

theorem immI_congr (h : imm12Of w = imm12Of w') : immI w = immI w' := congrArg (BitVec.signExtend 32) h

theorem immS_congr (hrd : rdOf w = rdOf w') (h7 : funct7Of w = funct7Of w') : immS w = immS w' :=
  congrArg₂ (fun (a : BitVec 7) (b : BitVec 5) => (a ++ b).signExtend 32) h7 hrd

/-- The bits of `immB` are those of the rd and funct7 fields. -/
theorem immB_congr (hrd : rdOf w = rdOf w') (h7 : funct7Of w = funct7Of w') : immB w = immB w' := by
  have low : ∀ k < 5, w.getLsbD (7 + k) = w'.getLsbD (7 + k) := fun k hk => by
    rw [← getLsbD_rdOf w hk, hrd, getLsbD_rdOf w' hk]
  have high : ∀ k < 7, w.getLsbD (25 + k) = w'.getLsbD (25 + k) := fun k hk => by
    rw [← getLsbD_funct7Of w hk, h7, getLsbD_funct7Of w' hk]
  apply BitVec.eq_of_getLsbD_eq
  intro i hi
  rw [getLsbD_immB w hi, getLsbD_immB w' hi]
  split_ifs with h0 h5 h11 h11'
  · rfl
  · exact low i h5
  · have := high (i - 5) (by omega)
    rwa [show 25 + (i - 5) = 20 + i by omega] at this
  · exact low 0 (by decide)
  · exact high 6 (by decide)

theorem decode_system_congr (h : opcodeOf w = 0x73#7) (h' : opcodeOf w' = 0x73#7) (h3 : funct3Of w = 0#3)
    (h3' : funct3Of w' = 0#3) (hi : imm12Of w = imm12Of w') (hc : imm12Of w = 0#12 ∨ imm12Of w = 1#12) :
    decode w = decode w' := by
  rcases hc with hc | hc
  · rw [decode_ecall h h3 hc, decode_ecall h' h3' (hi ▸ hc)]
  · rw [decode_ebreak h h3 hc, decode_ebreak h' h3' (hi ▸ hc)]

end

/-- The funct3 values of the five multiply/divide instructions (R120; log 10). -/
theorem funct3_of_mulDiv {f : BitVec 3} (h : f = 0#3 ∨ 4 ≤ f.toNat) :
    f = 0#3 ∨ f = 4#3 ∨ f = 5#3 ∨ f = 6#3 ∨ f = 7#3 := by
  revert f
  decide

/-- Settles O18: each clause rewrites both words by their family's equation, whose operands are read from equal fields. -/
theorem decoderIgnoresTheListedBits : Obligations.DecoderIgnoresTheListedBits := by
  refine ⟨fun w w' => decode_system_congr, fun w w' hrd hrs1 => ⟨fun ho hc hi => ?_, fun ho hc hrs2 h7 => ?_,
    fun h h' h3 h3' hrs2 => ?_, fun h h' h3 h3' hrs2 h7 => ?_, fun h h' h1 h5 h1' h5' hi => ?_,
    fun h h' hrs2 h7 hne => ?_, fun h h' hrs2 h7 h7' h3 hc => ?_⟩⟩
  · rcases hc with hc | hc
    · rw [decode_jalr hc, decode_jalr (ho ▸ hc), hrd, hrs1, immI_congr hi]
    · rw [decode_load hc, decode_load (ho ▸ hc), hrd, hrs1, immI_congr hi]
  · rcases hc with hc | hc
    · rw [decode_store hc, decode_store (ho ▸ hc), hrs1, hrs2, immS_congr hrd h7]
    · rw [decode_branch hc, decode_branch (ho ▸ hc), hrs1, hrs2, immB_congr hrd h7]
  · rw [decode_shiftImm h (.inl h3), decode_shiftImm h' (.inl h3'), hrd, hrs1, shamtOf_eq_rs2Of, hrs2,
      shamtOf_eq_rs2Of]
    simp [h3, h3']
  · rw [decode_shiftImm h (.inr h3), decode_shiftImm h' (.inr h3'), hrd, hrs1, shamtOf_eq_rs2Of, hrs2,
      shamtOf_eq_rs2Of]
    simp [h3, h3', h7]
  · rw [decode_opImm h h1 h5, decode_opImm h' h1' h5', hrd, hrs1, immI_congr hi]
  · rw [decode_op h hne, decode_op h' (h7 ▸ hne), hrd, hrs1, hrs2, h7]
  · rcases funct3_of_mulDiv hc with f | f | f | f | f
    · rw [decode_mul h h7 f, decode_mul h' h7' (h3 ▸ f), hrd, hrs1, hrs2]
    · rw [decode_div h h7 f, decode_div h' h7' (h3 ▸ f), hrd, hrs1, hrs2]
    · rw [decode_divu h h7 f, decode_divu h' h7' (h3 ▸ f), hrd, hrs1, hrs2]
    · rw [decode_rem h h7 f, decode_rem h' h7' (h3 ▸ f), hrd, hrs1, hrs2]
    · rw [decode_remu h h7 f, decode_remu h' h7' (h3 ▸ f), hrd, hrs1, hrs2]

/-! ## The words that `encode` writes -/

theorem decodeRow_of_ok {w : Word} {i : Instr} (h : decode w = .ok i) : decodeRow w = i := by
  rw [decodeRow, h]

theorem decodeRow_of_error {w : Word} {e : DecodeError} (h : decode w = .error e) : decodeRow w = e.row := by
  rw [decodeRow, h]

/-- Decode inverts encode on the variants of R150: each is the equation of its family, with the fields of its word. -/
theorem decode_encode {i : Instr} (h : i.wellFormed = true) (hv : i.isVariant = true) : decode (encode i) = .ok i := by
  cases i with
  | lui rd imm =>
    obtain ⟨ho, hrd, himm⟩ := Laws.EncodedFields.lui rd imm h
    rw [decode_lui ho, hrd, himm]
  | auipc rd imm =>
    obtain ⟨ho, hrd, himm⟩ := Laws.EncodedFields.auipc rd imm h
    rw [decode_auipc ho, hrd, himm]
  | jal rd imm =>
    obtain ⟨ho, hrd, himm⟩ := Laws.EncodedFields.jal rd imm h
    rw [decode_jal ho, hrd, himm]
  | jalr rd rs1 imm =>
    obtain ⟨ho, hrd, hrs1, himm⟩ := Laws.EncodedFields.jalr rd rs1 imm h
    rw [decode_jalr ho, hrd, hrs1, himm]
  | load rd rs1 imm =>
    obtain ⟨ho, hrd, hrs1, himm⟩ := Laws.EncodedFields.load rd rs1 imm h
    rw [decode_load ho, hrd, hrs1, himm]
  | shiftImm rd rs1 shamt arithmetic =>
    obtain ⟨ho, h3, hrd, hrs1, hsh, har⟩ := Laws.EncodedFields.shiftImm rd rs1 shamt arithmetic h
    rw [decode_shiftImm ho h3, hrd, hrs1, hsh]
    simp only [← har, Bool.decide_eq_true]
  | opImm rd rs1 imm =>
    obtain ⟨ho, h3, hrd, hrs1, himm⟩ := Laws.EncodedFields.opImm rd rs1 imm h
    rw [decode_opImm ho (by simp [h3]) (by simp [h3]), hrd, hrs1, himm]
  | store rs1 rs2 imm =>
    obtain ⟨ho, hrs1, hrs2, himm⟩ := Laws.EncodedFields.store rs1 rs2 imm h
    rw [decode_store ho, hrs1, hrs2, himm]
  | branch rs1 rs2 imm =>
    obtain ⟨ho, hrs1, hrs2, himm⟩ := Laws.EncodedFields.branch rs1 rs2 imm h
    rw [decode_branch ho, hrs1, hrs2, himm]
  | op rd rs1 rs2 funct7 =>
    obtain ⟨ho, h7, hne, hrd, hrs1, hrs2⟩ := Laws.EncodedFields.op rd rs1 rs2 funct7 h
    rw [decode_op (.inl ho) (ne_of_eq_of_ne h7 hne), hrd, hrs1, hrs2, h7]
  | mul rd rs1 rs2 =>
    obtain ⟨ho, h7, h3, hrd, hrs1, hrs2⟩ := Laws.EncodedFields.mul rd rs1 rs2 h
    rw [decode_mul (.inl ho) h7 h3, hrd, hrs1, hrs2]
  | div rd rs1 rs2 =>
    obtain ⟨ho, h7, h3, hrd, hrs1, hrs2⟩ := Laws.EncodedFields.div rd rs1 rs2 h
    rw [decode_div (.inl ho) h7 h3, hrd, hrs1, hrs2]
  | divu rd rs1 rs2 =>
    obtain ⟨ho, h7, h3, hrd, hrs1, hrs2⟩ := Laws.EncodedFields.divu rd rs1 rs2 h
    rw [decode_divu (.inl ho) h7 h3, hrd, hrs1, hrs2]
  | rem rd rs1 rs2 =>
    obtain ⟨ho, h7, h3, hrd, hrs1, hrs2⟩ := Laws.EncodedFields.rem rd rs1 rs2 h
    rw [decode_rem (.inl ho) h7 h3, hrd, hrs1, hrs2]
  | remu rd rs1 rs2 =>
    obtain ⟨ho, h7, h3, hrd, hrs1, hrs2⟩ := Laws.EncodedFields.remu rd rs1 rs2 h
    rw [decode_remu (.inl ho) h7 h3, hrd, hrs1, hrs2]
  | ecall =>
    obtain ⟨ho, h3, hi⟩ := Laws.EncodedFields.ecall h
    exact decode_ecall ho h3 hi
  | ebreak =>
    obtain ⟨ho, h3, hi⟩ := Laws.EncodedFields.ebreak h
    exact decode_ebreak ho h3 hi
  | invalidInstruction | unknownOpcode => simp [Instr.isVariant] at hv

theorem decode_encode_invalidInstruction {w : Word} (h : (Instr.invalidInstruction w).wellFormed = true) :
    decode (encode (.invalidInstruction w)) = .error (.invalidInstruction w) :=
  (decode_invalidInstruction_iff w).2 (by simpa [Instr.wellFormed] using h)

theorem decode_encode_unknownOpcode {o : BitVec 7} (h : (Instr.unknownOpcode o).wellFormed = true) :
    decode (encode (.unknownOpcode o)) = .error (.unknownOpcode o) := by
  have ho : opcodeOf (encode (.unknownOpcode o)) = o := Laws.EncodedFields.unknownOpcode o h
  have hn : o ∉ knownOpcodes := by simpa [Instr.wellFormed] using h
  have hd := (decode_unknownOpcode_iff (encode (.unknownOpcode o))).2 (ho.symm ▸ hn)
  rwa [ho] at hd

/-- Settles O19: a variant by `decode_encode`, a decode-error class by the row of the error its word raises. -/
theorem encodedInstructionDecodesToItself : Obligations.EncodedInstructionDecodesToItself := by
  refine fun i h => ⟨?_, decode_encode h⟩
  cases i with
  | invalidInstruction w => exact decodeRow_of_error (decode_encode_invalidInstruction h)
  | unknownOpcode o => exact decodeRow_of_error (decode_encode_unknownOpcode h)
  | _ => exact decodeRow_of_ok (decode_encode h rfl)

/-- Settles O39: both classes are the shared `raise` of their decode error. -/
theorem decodeErrorClassesRaiseTheirError : Obligations.DecodeErrorClassesRaiseTheirError :=
  fun _ => ⟨fun _ => rfl, fun _ => rfl⟩

end Sys2Proof.Machine
end

section
/-! PROOFS for spec/40_cycle.md: the instructions that `step()` can return (R150), `step()` itself (R152), the cycle as
`step()` followed by execute (R153, R154), and what an operation that raises leaves (R156). -/

namespace Sys2Proof.Machine

/-! ## What the decoder produces -/

section
variable {w : Word} {i : Instr} {e : DecodeError}

theorem decodeOpImm_wellFormed_and_isVariant (w : Word) :
    (decodeOpImm w).wellFormed = true ∧ (decodeOpImm w).isVariant = true := by
  rcases decodeOpImm_cases w with ⟨-, hd⟩ | ⟨-, -, hd⟩ <;> rw [hd]
  · exact ⟨rfl, rfl⟩
  · exact ⟨immI_fits w, rfl⟩

theorem decodeOp_ok_wellFormed_and_isVariant (h : decodeOp w = .ok i) :
    i.wellFormed = true ∧ i.isVariant = true := by
  rcases decodeOp_cases w with ⟨h7, hd⟩ | ⟨-, -, hd⟩ | ⟨-, -, hd⟩ | ⟨-, -, hd⟩ | ⟨-, -, hd⟩ | ⟨-, -, hd⟩
    | ⟨-, -, hd⟩ <;> cases hd.symm.trans h
  · exact ⟨bne_iff_ne.2 h7, rfl⟩
  all_goals exact ⟨rfl, rfl⟩

theorem decodeSystem_ok_wellFormed_and_isVariant (h : decodeSystem w = .ok i) :
    i.wellFormed = true ∧ i.isVariant = true := by
  rcases decodeSystem_cases w with ⟨-, -, hd⟩ | ⟨-, -, hd⟩ | ⟨-, hd⟩ <;> cases hd.symm.trans h
  all_goals exact ⟨rfl, rfl⟩

/-- Family by family, a decoded immediate lies in its range. -/
theorem decode_ok_wellFormed_and_isVariant (h : decode w = .ok i) : i.wellFormed = true ∧ i.isVariant = true := by
  rcases decode_cases w with ⟨-, hd⟩ | ⟨-, hd⟩ | ⟨-, hd⟩ | ⟨-, hd⟩ | ⟨-, hd⟩ | ⟨-, hd⟩ | ⟨-, hd⟩ | ⟨-, hd⟩
    | ⟨-, hd⟩ | ⟨-, hd⟩ | ⟨-, hd⟩ <;> rw [hd] at h
  · cases h; exact ⟨immU_fits w, rfl⟩
  · cases h; exact ⟨immU_fits w, rfl⟩
  · cases h; exact ⟨immJ_fits w, rfl⟩
  · cases h; exact ⟨immI_fits w, rfl⟩
  · cases h; exact ⟨immI_fits w, rfl⟩
  · cases h; exact decodeOpImm_wellFormed_and_isVariant w
  · cases h; exact ⟨immS_fits w, rfl⟩
  · cases h; exact ⟨immB_fits w, rfl⟩
  · exact decodeOp_ok_wellFormed_and_isVariant h
  · exact decodeSystem_ok_wellFormed_and_isVariant h
  · cases h

theorem row_isVariant (e : DecodeError) : e.row.isVariant = false := by cases e <;> rfl

/-- R124: an error names an opcode outside the known ones or an illegal word. -/
theorem decode_error_row_wellFormed (h : decode w = .error e) : e.row.wellFormed = true := by
  rcases (decode_error_iff w e).1 h with ⟨rfl, ho⟩ | ⟨rfl, hw⟩
  · simpa [DecodeError.row, Instr.wellFormed] using ho
  · simpa [DecodeError.row, Instr.wellFormed] using hw

end

/-- Settles O16: the instructions family by family, the errors by R124. -/
theorem decoderProducesWellFormedInstructions : Obligations.DecoderProducesWellFormedInstructions :=
  fun _ => ⟨fun _ => decode_ok_wellFormed_and_isVariant,
    fun e h => ⟨decode_error_row_wellFormed h, row_isVariant e⟩⟩

/-! ## The replies of `step()` and execute -/

section
variable {s t : State} {d : Instr} {e : CpuError}

theorem hostOp_step_ok (h : fetchDecodeAdvance s = .ok (d, t)) : hostOp .step s = (.instr d, t) := by
  simp only [hostOp, h]

theorem hostOp_step_error (h : fetchDecodeAdvance s = .error e) : hostOp .step s = (.cpuError e, s) := by
  simp only [hostOp, h]

theorem hostOp_execute_next (h : exec d s = .next t) : hostOp (.execute d) s = (.unit, t) := by
  simp only [hostOp, h]

theorem hostOp_execute_raise (h : exec d s = raise e s) : hostOp (.execute d) s = (.cpuError e, s) := by
  simp only [hostOp, h, raise, faultOf_error, faultOf_after]

end

theorem advance_memorySame (s : State) : MemorySame s s.advance :=
  ⟨by rw [advance_mem], fun _ => by rw [advance_mem]⟩

/-- Settles O41: a fetch error, a decode error, or the advanced state, whose registers and memory are those before. -/
theorem stepOperationFetchesDecodesAndAdvances : Obligations.StepOperationFetchesDecodesAndAdvances := fun s =>
  ⟨fun _ hf => hostOp_step_error (fetchDecodeAdvance_of_fetch_error hf),
    fun _ _ hf hd => hostOp_step_error (fetchDecodeAdvance_of_decode_error hf hd),
    fun _ _ hf hd => ⟨s.advance, hostOp_step_ok (fetchDecodeAdvance_of_decode_ok hf hd), advance_pc s,
      advance_readReg s, advance_memorySame s⟩⟩

/-! ## The cycle as `step()` and execute -/

/-- R154: a cycle raises the error of `step()` in the state before it, or it is the execute of the instruction that
`step()` returned, in the advanced state. -/
theorem step_eq_raise_or_exec (s : State) :
    (∃ e, fetchDecodeAdvance s = .error e ∧ step s = raise e s)
      ∨ ∃ d, fetchDecodeAdvance s = .ok (d, s.advance) ∧ step s = exec d s.advance := by
  rcases step_cases s with ⟨e, hf, hs⟩ | ⟨w, e, hf, hd, hs⟩ | ⟨w, d, hf, hd, hs⟩
  · exact .inl ⟨_, fetchDecodeAdvance_of_fetch_error hf, hs⟩
  · exact .inl ⟨_, fetchDecodeAdvance_of_decode_error hf hd, hs⟩
  · exact .inr ⟨d, fetchDecodeAdvance_of_decode_ok hf hd, hs⟩

/-- Settles O42: the two ways of `step_eq_raise_or_exec`, and in the second the two ways an execute ends. -/
theorem cycleIsStepThenExecute : Obligations.CycleIsStepThenExecute := by
  intro s
  rcases step_eq_raise_or_exec s with ⟨e, hf, hs⟩ | ⟨d, hf, hs⟩
  · rw [hostOp_step_error hf]
    refine ⟨fun e' he => ?_, fun d hd => (nomatch hd)⟩
    cases he
    exact ⟨faultOf e s, hs, faultOf_error e s, by rw [faultOf_after]⟩
  · rw [hostOp_step_ok hf]
    refine ⟨fun e he => (nomatch he), fun d' hd => ?_⟩
    cases hd
    rcases exec_next_or_raise d s.advance with ⟨t, hx⟩ | ⟨e, hx, -⟩
    · rw [hostOp_execute_next hx]
      refine ⟨fun t' ht => ?_, fun e t' ht => (nomatch ht)⟩
      cases ht
      exact hs.trans hx
    · rw [hostOp_execute_raise hx]
      refine ⟨fun t ht => (nomatch ht), fun e' t ht => ?_⟩
      cases ht
      exact ⟨faultOf e s.advance, hs.trans hx, faultOf_error .., faultOf_after .., advance_pc s⟩

theorem exec_fault_after {i : Instr} {s : State} {f : Fault} (h : exec i s = .fault f) : f.after = s := by
  rw [exec_fault_eq h, faultOf_after]

/-- Settles O46: the fault of a cycle is raised by `step()` in the state before it, or by execute in the advanced one. -/
theorem errorsChangeNothing : Obligations.ErrorsChangeNothing := by
  refine ⟨fun _ _ _ => exec_fault_after, fun s f h => ?_⟩
  rcases step_eq_raise_or_exec s with ⟨e, hf, hs⟩ | ⟨d, hf, hs⟩
  · have hfault : f = faultOf e s := (raise_eq_fault ..).1 (hs.symm.trans h)
    exact .inl ⟨⟨e, hf⟩, by rw [hfault, faultOf_after]⟩
  · have hx := hs.symm.trans h
    exact .inr ⟨d, hf, hx, exec_fault_after hx⟩

/-! ## The cycle by the bytes at the pc -/

theorem fetch_of_admitted {s : State} (h : Admitted s.mem s.pc) : s.fetch = .ok (s.mem.wordAt s.pc.toNat) :=
  loadWord_of_admitted h

theorem exec_row (e : DecodeError) (s : State) : exec e.row s = raise (.decode e) s := by cases e <;> rfl

/-- What the four bytes at an address hold is the table row of the word there. -/
theorem decodeBytes_eq_decodeRow_wordAt (m : Memory) (a : Nat) :
    decodeBytes [m.byteAt a, m.byteAt (a + 1), m.byteAt (a + 2), m.byteAt (a + 3)]
      = some (decodeRow (m.wordAt a), []) := rfl

/-- A cycle whose fetch succeeds executes the table row of the fetched word: past the word when the row is a variant,
in place when it is a decode-error class. -/
theorem step_of_fetch_ok {s : State} {w : Word} (hf : s.fetch = .ok w) :
    step s = exec (decodeRow w) (if (decodeRow w).isVariant then s.advance else s) := by
  cases hd : decode w with
  | ok i =>
    obtain ⟨-, hv⟩ := decode_ok_wellFormed_and_isVariant hd
    rw [decodeRow_of_ok hd, if_pos hv, step_of_decode_ok hf hd]
  | error e =>
    rw [decodeRow_of_error hd, row_isVariant, if_neg Bool.false_ne_true, exec_row, step_of_decode_error hf hd]

/-- Settles O40: the bytes at an admitted pc are the fetched word's, so `step_of_fetch_ok` applies. -/
theorem cycleRunsTheInstructionAtThePc : Obligations.CycleRunsTheInstructionAtThePc := by
  intro s i hadm hbytes
  rw [decodeBytes_eq_decodeRow_wordAt] at hbytes
  have hrow : decodeRow (s.mem.wordAt s.pc.toNat) = i := congrArg Prod.fst (Option.some.inj hbytes)
  have hstep := step_of_fetch_ok (fetch_of_admitted hadm)
  rw [hrow] at hstep
  refine ⟨fun hv => ?_, fun hv => ?_, advance_pc s, advance_mem s, advance_readReg s⟩
  · rw [hstep, if_pos hv]
  · rw [hstep, if_neg (by simp [hv])]

end Sys2Proof.Machine
end

section
/-! PROOFS for spec/41_upper_immediate.md: LUI (R160) and AUIPC (R161). -/

namespace Sys2Proof.Machine

/-! ## An operation that writes one result -/

/-- An operation that completes with a value writes that value to its destination and nothing else. -/
theorem completeWith_writesOnly (rd : RegIdx) (v : Word) (s : State) :
    ∃ t, completeWith rd v s = .next t ∧ WritesOnly rd v s t :=
  ⟨(s.writeReg rd v).markRunning, (completeWith_eq_next ..).2 rfl, writesOnly_of_write rd v s⟩

/-! ## LUI and AUIPC -/

section
variable (rd : RegIdx) (imm : Word) (s : State)

theorem exec_lui : exec (.lui rd imm) s = completeWith rd imm s := rfl

theorem exec_auipc : exec (.auipc rd imm) s = completeWith rd (s.pc + imm) s := rfl

theorem exec_lui_writesOnly : ∃ t, exec (.lui rd imm) s = .next t ∧ WritesOnly rd imm s t := by
  rw [exec_lui]
  exact completeWith_writesOnly rd imm s

theorem exec_auipc_writesOnly : ∃ t, exec (.auipc rd imm) s = .next t ∧ WritesOnly rd (s.pc + imm) s t := by
  rw [exec_auipc]
  exact completeWith_writesOnly rd (s.pc + imm) s

end

/-- Settles O21: `decode_lui`, the rule's example, and the one write of the execute. -/
theorem luiWritesItsImmediate : Obligations.LuiWritesItsImmediate :=
  ⟨fun w h => ⟨rdOf w, decode_lui h⟩, decode_lui (by decide), exec_lui_writesOnly⟩

/-- Settles O22: `decode_auipc`, an example, and the one write of the execute, which in a cycle starts with the pc past
the instruction. -/
theorem auipcAddsItsImmediateToThePc : Obligations.AuipcAddsItsImmediateToThePc := by
  refine ⟨fun w h => ⟨rdOf w, decode_auipc h⟩, decode_auipc (by decide), exec_auipc_writesOnly,
    fun w rd imm s hf hd => ?_⟩
  obtain ⟨t, hx, hrd, -, hpc, -, -⟩ := exec_auipc_writesOnly rd imm s.advance
  rw [advance_pc] at hrd hpc
  exact ⟨t, (step_of_decode_ok hf hd).trans hx, hrd, hpc⟩

end Sys2Proof.Machine
end

section
/-! PROOFS for spec/42_jumps.md: JAL (R170) and JALR (R171). -/

namespace Sys2Proof.Machine

/-! ## An operation that writes the link and goes to a target -/

/-- `t` is `s` after a jump: the link `P + 4` in `x[rd]`, the pc at the target, every other register and every byte of
memory as before. -/
def LinksAndJumps (rd : RegIdx) (target : Word) (s t : State) : Prop :=
  Holds t rd (s.pc + 4#32) ∧ t.pc = target ∧ RegistersSameBut rd s t ∧ MemorySame s t ∧ t.phase = .running

/-- A jump writes its link as any result is written, and then only the pc. -/
theorem completeJump_linksAndJumps (rd : RegIdx) (target : Word) (s : State) :
    ∃ t, completeJump rd target s = .next t ∧ LinksAndJumps rd target s t := by
  obtain ⟨hrd, hregs, -, hmem, -⟩ := writesOnly_of_write rd (s.pc + 4#32) s
  exact ⟨_, (completeJump_eq_next ..).2 rfl, hrd, rfl, hregs, hmem, rfl⟩

/-! ## JAL and JALR -/

section
variable (rd rs1 : RegIdx) (imm : Word) (s : State)

theorem exec_jal : exec (.jal rd imm) s = completeJump rd (s.pc + imm) s := rfl

theorem exec_jalr : exec (.jalr rd rs1 imm) s = completeJump rd (absoluteTarget rs1 imm s) s := rfl

theorem exec_jal_linksAndJumps : ∃ t, exec (.jal rd imm) s = .next t ∧ LinksAndJumps rd (s.pc + imm) s t := by
  rw [exec_jal]
  exact completeJump_linksAndJumps rd (s.pc + imm) s

theorem exec_jalr_linksAndJumps :
    ∃ t, exec (.jalr rd rs1 imm) s = .next t ∧ LinksAndJumps rd (absoluteTarget rs1 imm s) s t := by
  rw [exec_jalr]
  exact completeJump_linksAndJumps rd (absoluteTarget rs1 imm s) s

end

/-- Settles O23: the link and target of the execute, which in a cycle starts with the pc past the instruction. -/
theorem jalLinksAndJumps : Obligations.JalLinksAndJumps := by
  refine ⟨exec_jal_linksAndJumps, fun w s hf ho => ?_⟩
  obtain ⟨t, hx, hrd, hpc, -, -, -⟩ := exec_jal_linksAndJumps (rdOf w) (immJ w) s.advance
  rw [advance_pc] at hrd hpc
  have hlink : s.pc + 4#32 + 4#32 = s.pc + 8#32 := BitVec.add_assoc s.pc 4#32 4#32
  rw [hlink] at hrd
  exact ⟨t, (step_of_decode_ok hf (decode_jal ho)).trans hx, hrd, hpc⟩

/-- Settles O24: the jump of the execute, its target bit by bit by `getLsbD_absoluteTarget`. -/
theorem jalrLinksAndJumps : Obligations.JalrLinksAndJumps := by
  intro rd rs1 imm s
  obtain ⟨t, hx, hrd, hpc, hregs, hmem, hphase⟩ := exec_jalr_linksAndJumps rd rs1 imm s
  refine ⟨t, hx, hrd, fun k => ?_, hregs, hmem, hphase⟩
  rw [hpc, getLsbD_absoluteTarget]

end Sys2Proof.Machine
end

section
/-! PROOFS for spec/43_immediate_alu.md: OP_IMM (R180) and SHIFT_IMM (R181). -/

namespace Sys2Proof.Machine

/-! ## OP_IMM -/

theorem exec_opImm (rd rs1 : RegIdx) (imm : Word) (s : State) :
    exec (.opImm rd rs1 imm) s = completeWith rd (s.readReg rs1 + imm) s := rfl

/-- The wrapping sum is the sum of the natural numbers modulo 2^32. -/
theorem exec_opImm_writesOnly (rd rs1 : RegIdx) (imm : Word) (s : State) :
    ∃ t, exec (.opImm rd rs1 imm) s = .next t
      ∧ WritesOnly rd (BitVec.ofNat 32 ((s.readReg rs1).toNat + imm.toNat)) s t := by
  rw [exec_opImm, BitVec.add_def]
  exact completeWith_writesOnly rd _ s

/-- Settles O25: `decode_opImm`, the rule's two examples, and the one write of the execute. -/
theorem opImmAddsItsImmediate : Obligations.OpImmAddsItsImmediate :=
  ⟨fun w h h1 h5 => ⟨rdOf w, rs1Of w, decode_opImm h h1 h5⟩,
    decode_opImm (by decide) (by decide) (by decide), decode_opImm (by decide) (by decide) (by decide),
    exec_opImm_writesOnly⟩

/-! ## SHIFT_IMM -/

theorem exec_shiftImm (rd rs1 : RegIdx) (shamt : Shamt) (arithmetic : Bool) (s : State) :
    exec (.shiftImm rd rs1 shamt arithmetic) s
      = completeWith rd (shiftResult (s.readReg rs1) shamt arithmetic) s := rfl

section
variable (a : Word) (shamt : Shamt) {i : Nat} (hi : i < 32)
include hi

/-- With the flag the sign bit fills the vacated places. -/
theorem getLsbD_shiftResult_true :
    (shiftResult a shamt true).getLsbD i = a.getLsbD (if i + shamt.toNat < 32 then i + shamt.toNat else 31) := by
  rw [shiftResult, if_pos rfl, BitVec.getLsbD_sshiftRight, Nat.add_comm shamt.toNat i]
  by_cases h : i + shamt.toNat < 32
  · simp [hi, h]
  · simp [hi, h, BitVec.msb_eq_getLsbD_last]

/-- Without the flag zeros fill them. -/
theorem getLsbD_shiftResult_false :
    (shiftResult a shamt false).getLsbD i = if i < shamt.toNat then false else a.getLsbD (i - shamt.toNat) := by
  rw [shiftResult, if_neg Bool.false_ne_true, BitVec.getLsbD_shiftLeft]
  by_cases h : i < shamt.toNat
  · simp [h]
  · simp [hi, h]

theorem getLsbD_shiftResult (arithmetic : Bool) :
    (shiftResult a shamt arithmetic).getLsbD i
      = if arithmetic = true then a.getLsbD (if i + shamt.toNat < 32 then i + shamt.toNat else 31)
        else if i < shamt.toNat then false else a.getLsbD (i - shamt.toNat) := by
  cases arithmetic with
  | false => exact getLsbD_shiftResult_false a shamt hi
  | true => exact getLsbD_shiftResult_true a shamt hi

end

/-- Settles O26: the one write of the execute with its bits by `getLsbD_shiftResult`, and `decode_shiftImm`. -/
theorem shiftImmShiftsRightOnlyWhenArithmetic : Obligations.ShiftImmShiftsRightOnlyWhenArithmetic := by
  refine ⟨fun rd rs1 shamt arithmetic s => ?_, fun w h h3 => ⟨_, decode_shiftImm h h3, decide_eq_true_iff⟩⟩
  rw [exec_shiftImm]
  obtain ⟨t, hx, hw⟩ := completeWith_writesOnly rd (shiftResult (s.readReg rs1) shamt arithmetic) s
  exact ⟨t, _, hx, hw, fun i hi => getLsbD_shiftResult (s.readReg rs1) shamt hi arithmetic⟩

end Sys2Proof.Machine
end

section
/-! PROOFS for spec/44_load_store.md: LOAD (R191) and STORE (R192) of an admitted address, and the errors of both (R156). -/

namespace Sys2Proof.Machine

/-! ## An admitted address -/

section
variable (rd rs1 rs2 : RegIdx) (imm : Word) {s : State} (h : Admitted s.mem (s.readReg rs1 + imm))
include h

theorem exec_load_of_admitted :
    exec (.load rd rs1 imm) s = completeWith rd (s.mem.wordAt (s.readReg rs1 + imm).toNat) s := by
  simp only [exec, execLoad, effectiveAddress, loadWord_of_admitted h]

theorem exec_store_of_admitted :
    exec (.store rs1 rs2 imm) s
      = complete (s.setMem (s.mem.putWord (s.readReg rs1 + imm).toNat (s.readReg rs2))) := by
  simp only [exec, execStore, effectiveAddress, storeWord_of_admitted _ h]

end

/-- Settles O27: the one write of the execute, whose value `wordAt` is the four bytes, the lowest address last. -/
theorem loadWritesTheWordAtItsAddress : Obligations.LoadWritesTheWordAtItsAddress := by
  intro rd rs1 imm s h
  rw [exec_load_of_admitted rd rs1 imm h]
  exact completeWith_writesOnly rd (s.mem.wordAt (s.readReg rs1 + imm).toNat) s

/-- Settles O28: the four bytes of `putWord` and its frame; the registers and the pc are those before. -/
theorem storeWritesTheWordAtItsAddress : Obligations.StoreWritesTheWordAtItsAddress := by
  intro rs1 rs2 imm s hwf h
  rw [exec_store_of_admitted rs1 rs2 imm h]
  obtain ⟨hspan, -⟩ := h
  exact ⟨_, rfl, fun k => byteAt_putWord_inside _ hwf hspan, fun a => byteAt_putWord_outside _ hwf hspan,
    putWord_size .., fun _ => rfl, rfl, rfl⟩

/-! ## A refused address -/

/-- An address the word check refuses ends LOAD and STORE in its error, with the state as before (R156). -/
theorem exec_load_store_of_wordError (r rs1 : RegIdx) {imm : Word} {s : State} {e : MemoryError}
    (h : s.mem.wordError (s.readReg rs1 + imm) = some e) :
    exec (.load r rs1 imm) s = .fault (.memory e s) ∧ exec (.store rs1 r imm) s = .fault (.memory e s) := by
  obtain ⟨load, store, -⟩ := accessors_of_wordError (s.readReg r) h
  constructor
  · simp only [exec, execLoad, effectiveAddress, load, raise, faultOf]
  · simp only [exec, execStore, effectiveAddress, store, raise, faultOf]

/-- Past the end, or aligned with its span past the end, an address is out of bounds (R63). -/
theorem wordError_outOfBounds {m : Memory} {a : Word}
    (h : m.size ≤ a.toNat ∨ a.toNat % 4 = 0 ∧ m.size < a.toNat + 4) : m.wordError a = some (.outOfBounds a m.size) := by
  by_cases hsize : m.size ≤ a.toNat
  · exact wordError_of_size_le hsize
  · obtain ⟨ha, hspan⟩ := h.resolve_left hsize
    exact wordError_of_span (Nat.not_le.1 hsize) ha hspan

/-- Settles O29: the errors of the word check, which both instructions raise. -/
theorem loadAndStoreRaiseOnABadAddress : Obligations.LoadAndStoreRaiseOnABadAddress := fun r rs1 _ _ =>
  ⟨fun h => exec_load_store_of_wordError r rs1 (wordError_outOfBounds h),
    fun h ha => exec_load_store_of_wordError r rs1 (wordError_of_misaligned h ha)⟩

end Sys2Proof.Machine
end

section
/-! PROOFS for spec/45_branch.md: BRANCH (R200). -/

namespace Sys2Proof.Machine

/-! ## An operation that only moves the pc -/

/-- `t` is `s` with the pc at `target` (and the indicator of R47): every register and every byte of memory as before. -/
def MovesOnlyThePc (target : Word) (s t : State) : Prop :=
  t.pc = target ∧ RegistersSame s t ∧ MemorySame s t ∧ t.phase = .running

theorem complete_setPc_movesOnlyThePc (target : Word) (s : State) :
    ∃ t, complete (s.setPc target) = .next t ∧ MovesOnlyThePc target s t :=
  ⟨_, rfl, rfl, fun _ => rfl, ⟨rfl, fun _ => rfl⟩, rfl⟩

/-! ## BRANCH -/

/-- Where BRANCH goes from the pc its execute starts with. -/
def branchTarget (rs1 rs2 : RegIdx) (imm : Word) (s : State) : Word :=
  if s.readReg rs1 = s.readReg rs2 then s.pc + imm else s.pc

section
variable (rs1 rs2 : RegIdx) (imm : Word) (s : State)

/-- A branch not taken is a move of the pc to where it stands. -/
theorem exec_branch : exec (.branch rs1 rs2 imm) s = complete (s.setPc (branchTarget rs1 rs2 imm s)) := by
  by_cases h : s.readReg rs1 = s.readReg rs2
  · simp [exec, execBranch, registersEqual, relativeTarget, branchTarget, h]
  · simp [exec, execBranch, registersEqual, branchTarget, h, State.setPc]

theorem exec_branch_movesOnlyThePc :
    ∃ t, exec (.branch rs1 rs2 imm) s = .next t ∧ MovesOnlyThePc (branchTarget rs1 rs2 imm s) s t := by
  rw [exec_branch]
  exact complete_setPc_movesOnlyThePc _ s

/-- In a cycle the registers are compared as they were before it, and the pc is past the word. -/
theorem branchTarget_advance :
    branchTarget rs1 rs2 imm s.advance
      = if s.readReg rs1 = s.readReg rs2 then s.pc + 4#32 + imm else s.pc + 4#32 := by
  rw [branchTarget, advance_readReg, advance_readReg, advance_pc]

end

/-- A pc that is misaligned or past the end of memory is refused by the next fetch (R63, R200). -/
theorem step_fault_of_bad_pc {t : State} (h : t.pc.toNat % 4 ≠ 0 ∨ t.mem.size ≤ t.pc.toNat) :
    ∃ e, step t = .fault (.memory e t) := by
  have hrefused : ¬Admitted t.mem t.pc := fun ⟨hspan, haligned⟩ => by omega
  obtain ⟨e, he⟩ := wordError_of_not_admitted hrefused
  exact ⟨e, step_of_wordError he⟩

/-- Settles O30: `decode_branch` and the range of immB, the rule's examples, and the one move of the execute, which in a
cycle starts with the pc past the instruction. -/
theorem branchRedirectsWhenEqual : Obligations.BranchRedirectsWhenEqual := by
  refine ⟨fun w h => ⟨rs1Of w, rs2Of w, decode_branch h, immFitsB_iff.1 (immB_fits w)⟩,
    decode_branch (by decide), decode_branch (by decide), fun rs1 rs2 imm s => ?_, fun w rs1 rs2 imm s hf hd => ?_⟩
  · obtain ⟨t, hx, hpc, hregs, hmem, hphase⟩ := exec_branch_movesOnlyThePc rs1 rs2 imm s
    exact ⟨t, hx, fun heq => hpc.trans (if_pos heq), fun hne => hpc.trans (if_neg hne), hregs, hmem, hphase,
      step_fault_of_bad_pc⟩
  · obtain ⟨t, hx, hpc, -, -, -⟩ := exec_branch_movesOnlyThePc rs1 rs2 imm s.advance
    exact ⟨t, (step_of_decode_ok hf hd).trans hx, hpc.trans (branchTarget_advance rs1 rs2 imm s)⟩

end Sys2Proof.Machine
end

section
/-! PROOFS for spec/46_register_alu.md: OP (R211), MUL (R212), the divider's DIV, DIVU, REM and REMU (R213 to R216), and the
law that ties each quotient to its remainder (R210). -/

namespace Sys2Proof.Machine

/-! ## The difference and the product as integers modulo 2^32 (R210) -/

section
variable (a b : Word)

theorem sub_eq_ofInt : a - b = BitVec.ofInt 32 (a.toNat - b.toNat : Int) := by
  rw [Int.sub_eq_add_neg, BitVec.ofInt_add, BitVec.ofInt_neg, BitVec.ofInt_natCast, BitVec.ofInt_natCast,
    BitVec.ofNat_toNat, BitVec.ofNat_toNat, BitVec.setWidth_eq, BitVec.setWidth_eq, BitVec.sub_eq_add_neg]

theorem mulResult_eq_ofNat : mulResult a b = BitVec.ofNat 32 (a.toNat * b.toNat) :=
  BitVec.eq_of_toNat_eq (by rw [mulResult, BitVec.toNat_mul, BitVec.toNat_ofNat])

theorem mulResult_eq_ofInt : mulResult a b = BitVec.ofInt 32 (a.toInt * b.toInt) := by
  rw [BitVec.ofInt_mul, BitVec.ofInt_toInt, BitVec.ofInt_toInt, mulResult]

end

/-! ## The divider -/

theorem divOverflows_eq_false_iff {a b : Word} :
    divOverflows a b = false ↔ ¬(a = 0x80000000#32 ∧ b = 0xFFFFFFFF#32) := by
  simp [divOverflows]

section
variable {a b : Word}

theorem divResult_of_zero (hb : b = 0#32) : divResult a b = 0xFFFFFFFF#32 := if_pos hb

theorem divuResult_of_zero (hb : b = 0#32) : divuResult a b = 0xFFFFFFFF#32 := if_pos hb

theorem remResult_of_zero (hb : b = 0#32) : remResult a b = a := if_pos hb

theorem remuResult_of_zero (hb : b = 0#32) : remuResult a b = a := if_pos hb

theorem divResult_of_overflow (ha : a = 0x80000000#32) (hb : b = 0xFFFFFFFF#32) :
    divResult a b = 0x80000000#32 := by
  subst ha hb
  decide

theorem remResult_of_overflow (ha : a = 0x80000000#32) (hb : b = 0xFFFFFFFF#32) : remResult a b = 0#32 := by
  subst ha hb
  decide

variable (hb : b ≠ 0#32)
include hb

/-- Unsigned division with remainder. -/
theorem divuResult_remuResult :
    a.toNat = b.toNat * (divuResult a b).toNat + (remuResult a b).toNat ∧ (remuResult a b).toNat < b.toNat := by
  have hpos : 0 < b.toNat := Nat.pos_of_ne_zero fun h => hb (BitVec.eq_of_toNat_eq h)
  rw [divuResult_toNat hb, remuResult_toNat hb]
  exact ⟨(Nat.div_add_mod ..).symm, Nat.mod_lt _ hpos⟩

variable (ho : ¬(a = 0x80000000#32 ∧ b = 0xFFFFFFFF#32))
include ho

theorem divResult_eq_tdiv : (divResult a b).toInt = Int.tdiv a.toInt b.toInt :=
  divResult_toInt hb (divOverflows_eq_false_iff.2 ho)

theorem remResult_eq_sub : (remResult a b).toInt = a.toInt - b.toInt * Int.tdiv a.toInt b.toInt :=
  remResult_toInt hb (divOverflows_eq_false_iff.2 ho)

theorem remResult_eq_tmod : (remResult a b).toInt = Int.tmod a.toInt b.toInt := by
  rw [remResult_eq_sub hb ho, Int.tmod_def]

/-- Signed division with remainder, the quotient rounded toward zero (D19; log 17). -/
theorem divResult_remResult :
    a.toInt = b.toInt * (divResult a b).toInt + (remResult a b).toInt
      ∧ (remResult a b).toInt.natAbs < b.toInt.natAbs
      ∧ ((remResult a b).toInt = 0 ∨ (remResult a b).toInt.sign = a.toInt.sign) := by
  rw [divResult_eq_tdiv hb ho, remResult_eq_tmod hb ho]
  refine ⟨(Int.mul_tdiv_add_tmod ..).symm, ?_, ?_⟩
  · rw [Int.natAbs_tmod]
    exact Nat.mod_lt _ (Int.natAbs_pos.2 (toInt_ne_zero hb))
  · by_cases hdvd : b.toInt ∣ a.toInt
    · exact .inl (Int.tmod_eq_zero_of_dvd hdvd)
    · exact .inr (by rw [Int.sign_tmod, if_neg hdvd])

end

/-! ## The executes -/

section
variable (rd rs1 rs2 : RegIdx) (s : State)

theorem exec_op_add :
    exec (.op rd rs1 rs2 0x00#7) s = completeWith rd (s.readReg rs1 + s.readReg rs2) s := rfl

theorem exec_op_sub :
    exec (.op rd rs1 rs2 0x20#7) s = completeWith rd (s.readReg rs1 - s.readReg rs2) s := rfl

theorem exec_op_undefined {funct7 : Funct7} (h0 : funct7 ≠ 0x00#7) (h20 : funct7 ≠ 0x20#7) :
    exec (.op rd rs1 rs2 funct7) s = .fault (.invalidOperation funct7 s) := by
  simp only [exec, execOp, opResult, if_neg h0, if_neg h20, raise, faultOf]

theorem exec_mul :
    exec (.mul rd rs1 rs2) s = completeWith rd (mulResult (s.readReg rs1) (s.readReg rs2)) s := rfl

theorem exec_div :
    exec (.div rd rs1 rs2) s = completeWith rd (divResult (s.readReg rs1) (s.readReg rs2)) s := rfl

theorem exec_divu :
    exec (.divu rd rs1 rs2) s = completeWith rd (divuResult (s.readReg rs1) (s.readReg rs2)) s := rfl

theorem exec_rem :
    exec (.rem rd rs1 rs2) s = completeWith rd (remResult (s.readReg rs1) (s.readReg rs2)) s := rfl

theorem exec_remu :
    exec (.remu rd rs1 rs2) s = completeWith rd (remuResult (s.readReg rs1) (s.readReg rs2)) s := rfl

end

/-- A destination other than x0 reads as the result once the operation has completed. -/
theorem readReg_of_completeWith {rd : RegIdx} {v : Word} {s t : State} (hrd : rd ≠ 0#5)
    (h : completeWith rd v s = .next t) : t.readReg rd = v := by
  rw [(completeWith_eq_next ..).1 h, markRunning_readReg, readReg_writeReg_same, if_neg hrd]

/-! ## The obligations -/

/-- Settles O37: each destination reads as its result, and the results of the divider satisfy both division laws. -/
theorem quotientAndRemainderAgree : Obligations.QuotientAndRemainderAgree := by
  intro rd rs1 rs2 s q r qu ru hrd hb hq hr hqu hru
  rw [exec_div] at hq
  rw [exec_rem] at hr
  rw [exec_divu] at hqu
  rw [exec_remu] at hru
  rw [readReg_of_completeWith hrd hq, readReg_of_completeWith hrd hr, readReg_of_completeWith hrd hqu,
    readReg_of_completeWith hrd hru]
  exact ⟨divResult_remResult hb, divuResult_remuResult hb⟩

/-- Settles O31: `decode_op`, the rule's two examples, the one write of the sum or the difference, and the error of any
other funct7, which in a cycle leaves the pc past the word. -/
theorem opAddsSubtractsOrRaises : Obligations.OpAddsSubtractsOrRaises := by
  refine ⟨fun w h h1 => ⟨rdOf w, rs1Of w, rs2Of w, decode_op h h1⟩, decode_op (by decide) (by decide),
    decode_op (by decide) (by decide), fun rd rs1 rs2 s => ⟨?_, ?_⟩,
    fun rd rs1 rs2 _ s => exec_op_undefined rd rs1 rs2 s, fun w s hf h h0 h1 h20 => ?_⟩
  · rw [exec_op_add, BitVec.add_def]
    exact completeWith_writesOnly rd _ s
  · rw [exec_op_sub, sub_eq_ofInt]
    exact completeWith_writesOnly rd _ s
  · rw [step_of_decode_ok hf (decode_op h h1)]
    exact exec_op_undefined _ _ _ _ h0 h20

/-- Settles O32: the one write of the execute, whose value is the low word under both readings of the operands. -/
theorem mulWritesTheLowWordOfTheProduct : Obligations.MulWritesTheLowWordOfTheProduct := by
  intro rd rs1 rs2 s
  obtain ⟨t, hx, hw⟩ := completeWith_writesOnly rd (mulResult (s.readReg rs1) (s.readReg rs2)) s
  exact ⟨t, _, (exec_mul ..).trans hx, hw, mulResult_eq_ofNat .., mulResult_eq_ofInt ..⟩

/-- Settles O33: the one write of the execute, and the value in each of the three cases. -/
theorem divWritesTheSignedQuotient : Obligations.DivWritesTheSignedQuotient := by
  intro rd rs1 rs2 s
  obtain ⟨t, hx, hw⟩ := completeWith_writesOnly rd (divResult (s.readReg rs1) (s.readReg rs2)) s
  exact ⟨t, _, (exec_div ..).trans hx, hw, divResult_of_zero, divResult_of_overflow, divResult_eq_tdiv⟩

/-- Settles O34: the one write of the execute, and the value in each of the two cases. -/
theorem divuWritesTheUnsignedQuotient : Obligations.DivuWritesTheUnsignedQuotient := by
  intro rd rs1 rs2 s
  obtain ⟨t, hx, hw⟩ := completeWith_writesOnly rd (divuResult (s.readReg rs1) (s.readReg rs2)) s
  exact ⟨t, _, (exec_divu ..).trans hx, hw, divuResult_of_zero, divuResult_toNat⟩

/-- Settles O35: the one write of the execute, and the value in each of the three cases. -/
theorem remWritesTheSignedRemainder : Obligations.RemWritesTheSignedRemainder := by
  intro rd rs1 rs2 s
  obtain ⟨t, hx, hw⟩ := completeWith_writesOnly rd (remResult (s.readReg rs1) (s.readReg rs2)) s
  exact ⟨t, _, (exec_rem ..).trans hx, hw, remResult_of_zero, remResult_of_overflow, remResult_eq_sub⟩

/-- Settles O36: the one write of the execute, and the value in each of the two cases. -/
theorem remuWritesTheUnsignedRemainder : Obligations.RemuWritesTheUnsignedRemainder := by
  intro rd rs1 rs2 s
  obtain ⟨t, hx, hw⟩ := completeWith_writesOnly rd (remuResult (s.readReg rs1) (s.readReg rs2)) s
  exact ⟨t, _, (exec_remu ..).trans hx, hw, remuResult_of_zero, remuResult_toNat⟩

end Sys2Proof.Machine
end

section
/-! PROOFS for spec/47_system.md: ECALL (R230) and EBREAK (R231). -/

namespace Sys2Proof.Machine

theorem exec_ecall (s : State) : exec .ecall s = complete s := rfl

theorem exec_ebreak (s : State) : exec .ebreak s = complete s := rfl

/-- Completing an operation sets the indicator (R47) and changes nothing else. -/
theorem complete_changesNothing (s : State) :
    ∃ t, complete s = .next t ∧ RegistersSame s t ∧ MemorySame s t ∧ t.pc = s.pc ∧ t.phase = .running := by
  have hmem : MemorySame s s.markRunning := ⟨by rw [markRunning_mem], fun _ => by rw [markRunning_mem]⟩
  exact ⟨_, rfl, markRunning_readReg s, hmem, markRunning_pc s, markRunning_phase s⟩

/-- Settles O38: both do nothing but complete. -/
theorem ecallAndEbreakDoNothing : Obligations.EcallAndEbreakDoNothing := by
  intro s
  rw [exec_ecall, exec_ebreak]
  have hdone := complete_changesNothing s
  exact ⟨hdone, hdone⟩

end Sys2Proof.Machine
end

section
/-! PROOFS for spec/60_exceptions.md: which executes raise, and what (R241, R244), and that every operation has an outcome
(R240). -/

namespace Sys2Proof.Machine

/-! ## Which executes raise -/

theorem error_of_raise {x : Host.Outcome State Fault Refusal} {s : State} {e : CpuError} {f : Fault}
    (he : x = raise e s) (h : x = .fault f) : f.error = e := by
  rw [(raise_eq_fault e s f).1 (he.symm.trans h), faultOf_error]

/-- Settles O47: LOAD and STORE raise what the word check answers, OP its funct7, and every other variant completes. -/
theorem onlyLoadStoreAndOpRaise : Obligations.OnlyLoadStoreAndOpRaise := by
  intro d s f hv h
  cases d with
  | load rd rs1 imm =>
    rcases execLoad_cases rd rs1 imm s with ⟨-, he⟩ | ⟨e, -, he⟩
    · exact absurd (he.symm.trans h) (complete_ne_fault _ f)
    · exact .inl ⟨.inl ⟨rd, rs1, imm, rfl⟩, e, error_of_raise he h⟩
  | store rs1 rs2 imm =>
    rcases execStore_cases rs1 rs2 imm s with ⟨-, he⟩ | ⟨e, -, he⟩
    · exact absurd (he.symm.trans h) (complete_ne_fault _ f)
    · exact .inl ⟨.inr ⟨rs1, rs2, imm, rfl⟩, e, error_of_raise he h⟩
  | op rd rs1 rs2 funct7 =>
    rcases execOp_cases rd rs1 rs2 funct7 s with ⟨v, -, he⟩ | ⟨-, he⟩
    · exact absurd (he.symm.trans h) (complete_ne_fault _ f)
    · exact .inr ⟨rd, rs1, rs2, funct7, rfl, error_of_raise he h⟩
  | lui | auipc | jal | jalr | shiftImm | opImm | branch | mul | div | divu | rem | remu | ecall | ebreak =>
    exact absurd h (complete_ne_fault _ f)
  | invalidInstruction | unknownOpcode => exact absurd hv Bool.false_ne_true

/-! ## Every operation has an outcome -/

theorem exec_ne_refused (i : Instr) (s : State) (r : Refusal) : exec i s ≠ .refused r := by
  rcases exec_next_or_raise i s with ⟨t, he⟩ | ⟨e, he, -⟩ <;> rw [he]
  · exact nofun
  · exact raise_ne_refused e s r

theorem step_ne_refused (s : State) (r : Refusal) : step s ≠ .refused r := by
  rcases step_eq_raise_or_exec s with ⟨e, -, hs⟩ | ⟨d, -, hs⟩ <;> rw [hs]
  · exact raise_ne_refused e s r
  · exact exec_ne_refused d s.advance r

/-- Only the reply to an execute could carry a refusal. -/
theorem hostOp_ne_refused (o : HostOp) (s : State) (r : Refusal) : (hostOp o s).1 ≠ .refused r := by
  cases o with
  | loadWord a => simp only [hostOp]; cases s.mem.loadWord a <;> exact nofun
  | storeWord a v => simp only [hostOp]; cases s.mem.storeWord a v <;> exact nofun
  | loadByte a => simp only [hostOp]; cases s.mem.loadByte a <;> exact nofun
  | storeByte a b => simp only [hostOp]; cases s.mem.storeByte a b <;> exact nofun
  | fetch a => simp only [hostOp]; cases s.mem.fetch a <;> exact nofun
  | step => simp only [hostOp]; cases fetchDecodeAdvance s <;> exact nofun
  | execute d =>
    rcases exec_next_or_raise d s with ⟨t, he⟩ | ⟨e, he, -⟩
    · rw [hostOp_execute_next he]; exact nofun
    · rw [hostOp_execute_raise he]; exact nofun
  | readReg | writeReg | readPc | setPc => exact nofun

/-- Settles O48: execute, the cycle and the host's operations, one lemma each. -/
theorem nothingIsRefused : Obligations.NothingIsRefused := ⟨exec_ne_refused, step_ne_refused, hostOp_ne_refused⟩

end Sys2Proof.Machine
end

section
/-! PROOFS for spec/70_reset_and_hazards.md: the core after construction (section 1), the ELF loader and the boot (R271 to
R283), a run and its budget (R291), and the host's duty to set the pc first (R292). -/

namespace Sys2Proof.Machine

/-! ## Construction -/

/-- Settles O3: a constructed core is the core around a new memory, which lists no cell. -/
theorem constructionLeavesTheInitialState : Obligations.ConstructionLeavesTheInitialState := by
  refine ⟨fun maxSize memSize s h => ?_, fun maxSize h => construct_of_memNew_ok (memNew_of_inside ⟨by decide, h⟩)⟩
  obtain ⟨m, hm, rfl⟩ := construct_ok h
  obtain ⟨-, rfl⟩ := memNew_ok hm
  exact ⟨around_readReg _, around_pc _, fun _ => rfl, rfl, around_phase _⟩

/-- Settles O53: a memory that lists no cell is in canonical form, and every slot of the register file is zero. -/
theorem resetMeetsTheInvariant : Obligations.ResetMeetsTheInvariant := by
  have hmem : State.reset.mem.wf := ⟨by decide, by decide, List.Pairwise.nil, nofun⟩
  exact ⟨hmem, by decide⟩

/-! ## The bytes of a segment -/

section
variable {buf : List Byte} {p : ProgramHeader} {k : Nat}

theorem segmentBytes_getD_file (hb : p.offset.toNat + p.filesz.toNat ≤ buf.length) (hk : k < p.filesz.toNat) :
    (segmentBytes buf p).getD k 0#8 = buf.getD (p.offset.toNat + k) 0#8 := by
  rw [segmentBytes, List.getD_append _ _ _ _ (by simp; omega)]
  simp [List.getD_eq_getElem?_getD, hk]

theorem segmentBytes_getD_fill (hk : p.filesz.toNat ≤ k) : (segmentBytes buf p).getD k 0#8 = 0#8 := by
  rw [segmentBytes, List.getD_append_right _ _ _ _ (by simp; omega), List.getD_eq_getElem?_getD]
  exact List.getElem?_getD_replicate_default_eq ..

end

/-! ## Loading a segment -/

section
variable {buf : List Byte} {p : ProgramHeader} {m : Memory}

theorem loadSegment_of_above (h : m.size < p.paddr.toNat + p.memsz.toNat) :
    loadSegment buf p m = .error (.error (.segmentOutOfBounds p.paddr p.memsz)) := by
  rw [loadSegment, if_pos h]

/-- A load fails at the first PT_LOAD segment that fails, with the memory it found (R281). -/
theorem loadSegments_of_segment_error {o : Nat} {e : ElfError} (rest : List Nat)
    (ht : (programHeaderAt buf o).type = 1#32) (h : loadSegment buf (programHeaderAt buf o) m = .error (.error e)) :
    loadSegments buf (o :: rest) m = .failed e m := by
  simp only [loadSegments, ht, h, ne_eq, not_true_eq_false, if_false]

variable (hs : p.paddr.toNat + p.memsz.toNat ≤ m.size) (hf : p.filesz.toNat ≤ p.memsz.toNat)
  (hb : p.offset.toNat + p.filesz.toNat ≤ buf.length)
include hs hf hb

theorem loadSegment_of_fits : loadSegment buf p m = .ok (m.putBytes p.paddr.toNat (segmentBytes buf p)) := by
  rw [loadSegment, if_neg (Nat.not_lt.2 hs), if_neg (Nat.not_lt.2 hf), if_neg (Nat.not_lt.2 hb)]

/-- Every byte after a segment is loaded. -/
theorem byteAt_putBytes_segment (a : Nat) (hm : m.wf) :
    (m.putBytes p.paddr.toNat (segmentBytes buf p)).byteAt a
      = if p.paddr.toNat ≤ a ∧ a < p.paddr.toNat + p.memsz.toNat then
          (segmentBytes buf p).getD (a - p.paddr.toNat) 0#8
        else m.byteAt a := by
  have hlen := segmentBytes_length hf hb
  rw [byteAt_putBytes a hm (by rw [hlen]; exact hs), hlen]

theorem byteAt_putBytes_segment_inside {k : Nat} (hm : m.wf) (hk : k < p.memsz.toNat) :
    (m.putBytes p.paddr.toNat (segmentBytes buf p)).byteAt (p.paddr.toNat + k) = (segmentBytes buf p).getD k 0#8 := by
  rw [byteAt_putBytes_segment hs hf hb _ hm, if_pos (by omega), Nat.add_sub_cancel_left]

theorem byteAt_putBytes_segment_outside {a : Nat} (hm : m.wf)
    (ha : a < p.paddr.toNat ∨ p.paddr.toNat + p.memsz.toNat ≤ a) :
    (m.putBytes p.paddr.toNat (segmentBytes buf p)).byteAt a = m.byteAt a := by
  rw [byteAt_putBytes_segment hs hf hb _ hm, if_neg (by omega)]

end

/-- Settles O57: the bounds check, and the bytes of `segmentBytes` at the addresses it covers and no other. -/
theorem segmentsAreCheckedCopiedAndZeroFilled : Obligations.SegmentsAreCheckedCopiedAndZeroFilled := by
  refine fun buf o p m hm => ⟨fun h => ⟨loadSegment_of_above h, ?_⟩, fun hs hf hb => ?_⟩
  · rintro rfl ht rest
    exact loadSegments_of_segment_error rest ht (loadSegment_of_above h)
  · refine ⟨_, loadSegment_of_fits hs hf hb, putBytes_size .., fun k hk => ?_, fun k hk hkm => ?_,
      fun a => byteAt_putBytes_segment_outside hs hf hb hm⟩
    · rw [byteAt_putBytes_segment_inside hs hf hb hm (Nat.lt_of_lt_of_le hk hf), segmentBytes_getD_file hb hk]
    · rw [byteAt_putBytes_segment_inside hs hf hb hm hkm, segmentBytes_getD_fill hk]

/-! ## The checks on the file -/

section
variable {parseOk : List Byte → Bool} {buf : List Byte}

theorem formatUnsupported_iff :
    formatUnsupported buf = true ↔ 6 ≤ buf.length ∧ ¬(buf.getD 4 0#8 = 1#8 ∧ buf.getD 5 0#8 = 1#8) := by
  simp only [formatUnsupported, Bool.and_eq_true, decide_eq_true_eq, Bool.not_eq_true', Bool.and_eq_false_iff,
    beq_eq_false_iff_ne, not_and_or, ne_eq]

theorem structureParses_iff :
    structureParses buf = true ↔ 52 ≤ buf.length ∧ buf.take 4 = [0x7F#8, 0x45#8, 0x4C#8, 0x46#8]
      ∧ (fileWord buf 28).toNat + (fileHalf buf 44).toNat * (fileHalf buf 42).toNat ≤ buf.length
      ∧ ∀ i, i < (fileHalf buf 44).toNat →
          (fileWord buf 28).toNat + i * (fileHalf buf 42).toNat + 32 ≤ buf.length := by
  simp only [structureParses, programHeaderOffsets, Bool.and_eq_true, decide_eq_true_eq, beq_iff_eq, List.all_map,
    List.all_eq_true, List.mem_range, Function.comp_apply, and_assoc]

variable (m : Memory)

theorem loadElf_of_unsupported (h : formatUnsupported buf = true) :
    loadElf parseOk (some buf) m = .failed (.unsupportedFormat (buf.getD 4 0#8) (buf.getD 5 0#8)) m := by
  simp only [loadElf, h, if_true]

theorem loadElf_of_not_parsed (hf : ¬formatUnsupported buf = true)
    (hp : ¬(structureParses buf = true ∧ parseOk buf = true)) : loadElf parseOk (some buf) m = .failed .parse m := by
  rw [← Bool.and_eq_true] at hp
  simp only [loadElf, if_neg hf, if_neg hp]

theorem loadElf_of_parsed (hf : ¬formatUnsupported buf = true) (hp : structureParses buf = true)
    (hk : parseOk buf = true) :
    loadElf parseOk (some buf) m = loadSegments buf (programHeaderOffsets buf) m := by
  simp only [loadElf, if_neg hf, hp, hk, Bool.and_self, if_true]

end

/-- Settles O58: `formatUnsupported_iff` and `structureParses_iff` say which of the loader's ends a file has. -/
theorem theLoaderRejectsBeforeTouchingMemory : Obligations.TheLoaderRejectsBeforeTouchingMemory := by
  intro parseOk m buf
  have supported : buf.getD 4 0#8 = 1#8 → buf.getD 5 0#8 = 1#8 → ¬formatUnsupported buf = true :=
    fun h4 h5 hf => (formatUnsupported_iff.1 hf).2 ⟨h4, h5⟩
  refine ⟨rfl, fun hlen hcls => loadElf_of_unsupported m (formatUnsupported_iff.2 ⟨hlen, hcls⟩), fun hlen => ?_,
    fun h4 h5 hbad => ?_, fun h4 h5 hlen hmagic htable hheaders hk => ?_⟩
  · refine loadElf_of_not_parsed m (fun hf => ?_) fun hp => ?_
    · exact absurd (formatUnsupported_iff.1 hf).1 (Nat.not_le.2 hlen)
    · have h52 := (structureParses_iff.1 hp.1).1
      omega
  · refine loadElf_of_not_parsed m (supported h4 h5) fun ⟨hp, hk⟩ => ?_
    obtain ⟨hlen, hmagic, htable, hheaders⟩ := structureParses_iff.1 hp
    rcases hbad with h | h | h | ⟨i, hi, h⟩ | h
    · exact absurd hlen (Nat.not_le.2 h)
    · exact h hmagic
    · exact absurd htable (Nat.not_le.2 h)
    · exact absurd (hheaders i hi) (Nat.not_le.2 h)
    · exact Bool.false_ne_true (h.symm.trans hk)
  · exact loadElf_of_parsed m (supported h4 h5) (structureParses_iff.2 ⟨hlen, hmagic, htable, hheaders⟩) hk

/-! ## The boot -/

/-- The entry that a load returns is the file's (R283). -/
theorem loadElf_loaded_entry {parseOk : List Byte → Bool} {buf : List Byte} {m m' : Memory} {e : Word}
    (h : loadElf parseOk (some buf) m = .loaded e m') : e = elfEntry buf := by
  rcases loadElf_cases parseOk (some buf) m with ⟨hn, -⟩ | ⟨b, hb, ⟨-, he⟩ | ⟨-, -, he⟩ | ⟨-, -, he⟩⟩
  · cases hn
  · cases he.symm.trans h
  · cases he.symm.trans h
  · obtain rfl := Option.some.inj hb
    exact (loadSegments_keeps.1 e m' (he.symm.trans h)).1

/-- A boot that launches made a memory, loaded it, built the core around it and set its pc to the entry (R273). -/
theorem boot_launched {maxSize memSize : Nat} {parseOk : List Byte → Bool} {file : Option (List Byte)} {h : Session}
    (hb : boot maxSize memSize parseOk file = .launched h) :
    ∃ m e m', memNew maxSize memSize = .ok m ∧ loadElf parseOk file m = .loaded e m'
      ∧ h = ⟨(constructWith m').setPc e, true⟩ := by
  unfold boot at hb
  cases hm : memNew maxSize memSize with
  | error _ => simp [hm] at hb
  | ok m =>
    cases hl : loadElf parseOk file m with
    | loaded e m' => exact ⟨m, e, m', rfl, hl, by simpa [hm, hl, eq_comm] using hb⟩
    | failed _ _ => simp [hm, hl] at hb
    | refused _ => simp [hm, hl] at hb

/-- Settles O59, by the steps of `boot_launched`. -/
theorem aBootStartsAtTheEntry : Obligations.ABootStartsAtTheEntry := by
  intro maxSize memSize parseOk buf h hb
  obtain ⟨m, e, m', hm, hl, rfl⟩ := boot_launched hb
  obtain rfl := loadElf_loaded_entry hl
  have hsize : m'.size = memSize := by
    obtain ⟨-, rfl⟩ := memNew_ok hm
    exact loadElf_size.1 _ _ hl
  exact ⟨setPc_pc .., rfl, around_readReg m', around_phase m', hsize, m, hm, hl⟩

/-! ## A run and its budget -/

section
variable {stop : StopPoint → State → Option Instr → Bool} {last : Option Instr} {s : State}

theorem runCycles_of_stop (n : Nat) (h : stop .betweenCycles s last = true) :
    runCycles stop n last s = .stopped s := by
  cases n <;> simp only [runCycles, h, if_true]

theorem runCycles_zero_of_not_stop (h : ¬stop .betweenCycles s last = true) :
    runCycles stop 0 last s = .outOfFuel s := by
  simp only [runCycles, if_neg h]

variable (stop last s)

/-- The first cycle of a run either ends it, the same way whatever the budget, or hands the rest of the budget on. -/
theorem runCycles_succ_cases :
    (∃ r, ∀ n, runCycles stop (n + 1) last s = r)
      ∨ ∃ d t, ∀ n, runCycles stop (n + 1) last s = runCycles stop n (some d) t := by
  simp only [runCycles]
  split
  · exact .inl ⟨_, fun _ => rfl⟩
  · split
    · exact .inl ⟨_, fun _ => rfl⟩
    · split
      · exact .inl ⟨_, fun _ => rfl⟩
      · split
        · exact .inr ⟨_, _, fun _ => rfl⟩
        · exact .inl ⟨_, fun _ => rfl⟩
        · exact .inl ⟨_, fun _ => rfl⟩

end

/-- Settles O56, by induction on the budget: a run without budget that did not run out was stopped before its first
cycle, and the first cycle of any other does not see the budget. -/
theorem aRunThatEndedDoesNotDependOnItsBudget : Obligations.ARunThatEndedDoesNotDependOnItsBudget := by
  intro stop n k last s hend
  induction n generalizing last s with
  | zero =>
    have hstop : stop .betweenCycles s last = true := by
      by_contra hn
      exact hend s (runCycles_zero_of_not_stop hn)
    rw [runCycles_of_stop _ hstop, runCycles_of_stop _ hstop]
  | succ n ih =>
    rw [Nat.succ_add]
    rcases runCycles_succ_cases stop last s with ⟨r, hr⟩ | ⟨d, t, ht⟩
    · rw [hr, hr]
    · simp only [ht] at hend ⊢
      exact ih (some d) t hend

/-! ## The host's duty to set the pc -/

/-- The operation of a move the host has, and what becomes of its session. -/
theorem move_of_allowed {h : Session} {o : HostOp} (ho : o ≠ .step ∨ h.pcSet = true) :
    h.move o = some ((hostOp o h.core).1, ⟨(hostOp o h.core).2, h.pcSet || o.setsPc⟩) := by
  rw [Session.move, if_neg]
  rintro ⟨rfl, hp⟩
  rcases ho with ho | ho
  · exact ho rfl
  · exact Bool.false_ne_true (hp.symm.trans ho)

theorem moves_cons_of_move {h h' : Session} {o : HostOp} {r : HostReply} (os : List HostOp)
    (hm : h.move o = some (r, h')) : h.moves (o :: os) = h'.moves os := by
  simp only [Session.moves, hm]

theorem moves_cons_of_move_none {h : Session} {o : HostOp} (os : List HostOp) (hm : h.move o = none) :
    h.moves (o :: os) = none := by
  simp only [Session.moves, hm]

theorem setsPc_eq_false {o : HostOp} (h : ∀ v, .setPc v ≠ o) : o.setsPc = false := by
  cases o with
  | setPc v => exact absurd rfl (h v)
  | loadWord | storeWord | loadByte | storeByte | fetch | readReg | writeReg | step | execute | readPc => rfl

/-- While the pc is not set, a sequence that comes to a `step()` before a `set_pc` is no move. -/
theorem moves_step_before_setPc {h : Session} {before : List HostOp} (after : List HostOp) (hp : h.pcSet = false)
    (hb : ∀ v, HostOp.setPc v ∉ before) : h.moves (before ++ .step :: after) = none := by
  induction before generalizing h with
  | nil => exact moves_cons_of_move_none after ((move_eq_none_iff h .step).2 ⟨rfl, hp⟩)
  | cons o os ih =>
    rw [List.cons_append]
    by_cases ho : o = .step
    · exact moves_cons_of_move_none _ ((move_eq_none_iff h o).2 ⟨ho, hp⟩)
    · have hset : o.setsPc = false := setsPc_eq_false fun v hv => hb v (hv ▸ List.mem_cons_self)
      rw [moves_cons_of_move _ (move_of_allowed (.inl ho))]
      exact ih (by rw [hp, hset, Bool.or_self]) fun v hv => hb v (List.mem_cons_of_mem o hv)

/-- Once the pc is set it stays set, and the host has every sequence. -/
theorem moves_of_pcSet {h : Session} (os : List HostOp) (hp : h.pcSet = true) : ∃ k, h.moves os = some k := by
  induction os generalizing h with
  | nil => exact ⟨h, rfl⟩
  | cons o os ih =>
    rw [moves_cons_of_move os (move_of_allowed (.inr hp))]
    exact ih (by rw [hp, Bool.true_or])

/-- Settles O60: the sequences before a `set_pc` and after one, a single move, and a run. -/
theorem theHostSetsThePcBeforeItsFirstStep : Obligations.TheHostSetsThePcBeforeItsFirstStep := by
  refine ⟨fun s before after => moves_step_before_setPc after rfl,
    fun h o ho => ⟨_, move_of_allowed ho, rfl⟩, fun h v ops => ?_, fun stop fuel h => ⟨fun hp => ?_, fun hp => ?_⟩⟩
  · have hv : HostOp.setPc v ≠ .step := nofun
    rw [moves_cons_of_move ops (move_of_allowed (.inl hv))]
    exact moves_of_pcSet ops (Bool.or_true _)
  · rw [Session.run, if_neg (by rw [hp]; exact Bool.false_ne_true)]
  · rw [Session.run, if_pos hp]

end Sys2Proof.Machine
end

section
/-! PROOFS for spec/95_test_vectors.md: words of section 2.1. -/

namespace Sys2Proof.Machine

/-- Settles O20: each word by the lemma of its family, or of its decode error. -/
theorem specWordsDecodeAsWritten : Obligations.SpecWordsDecodeAsWritten :=
  ⟨decode_lui (by decide), decode_auipc (by decide), decode_jal (by decide), decode_jalr (by decide),
    decode_load (by decide), decode_shiftImm (by decide) (by decide), decode_shiftImm (by decide) (by decide),
    decode_opImm (by decide) (by decide) (by decide), decode_store (by decide), decode_branch (by decide),
    decode_op (by decide) (by decide), decode_div (by decide) (by decide) (by decide),
    decode_ebreak (by decide) (by decide) (by decide), (decode_invalidInstruction_iff _).2 (by decide),
    (decode_unknownOpcode_iff _).2 (by decide)⟩

end Sys2Proof.Machine
end
